-- ==== Sys2Proof/Word.lean ====
section
/-! DEFINITION. The byte of the register buffer and the 16-bit command word (00_scope.md R7, R9; 30_encoding.md R48). -/

namespace Sys2Proof

/-- One buffer byte, bit 0 least significant (00_scope.md R8, R9). -/
abbrev Byte := BitVec 8

/-- One command word (30_encoding.md R48). -/
abbrev Word := BitVec 16

end Sys2Proof
end

