-- ==== Sys2Proof/Config.lean ====
section
/-! DEFINITION. The configuration of the block: field descriptors, bit spans, value types and the parameter
UINT_WIDTHS (00_scope.md R7; 10_state.md R15, R16; 41_value_codec.md R68). The configuration is fixed before reset
and no operation writes it. It is declared data: the checks WF1 to WF5 of 10_state.md R19 are in Machine/Configure.lean. -/

namespace Sys2Proof

/-- A bit span as declared: "a tagged variant with exactly one of {single-bit, range} populated" (10_state.md R16).
Check WF1 demands that exactly one of the two is populated. -/
structure BitSpan where
  /-- `Single(bit)`: one bit at this absolute position. -/
  single : Option Nat
  /-- `Range(start, end_exclusive)`. -/
  range : Option (Nat × Nat)
  deriving DecidableEq, Repr

/-- The span `Single(bit)` (10_state.md R16). -/
abbrev BitSpan.ofSingle (bit : Nat) : BitSpan := { single := some bit, range := none }

/-- The span `Range(start, end_exclusive)` (10_state.md R16). -/
abbrev BitSpan.ofRange (start endExclusive : Nat) : BitSpan := { single := none, range := some (start, endExclusive) }

/-- The byte order a wrapped integer declares (20_memory.md R34; 41_value_codec.md R76). -/
inductive ByteOrder where
  /-- Little-endian: the only order the block admits. -/
  | little
  /-- Any other declared order, by its name: check WF4 fails. -/
  | other (name : String)
  deriving DecidableEq, Repr

/-- The value type of a field as declared (41_value_codec.md R68). -/
inductive ValueType where
  /-- `UInt W`. -/
  | uint (width : Nat)
  /-- `Bool`. -/
  | bool
  /-- A wrapped integer of the given width with an explicit byte order; `LEWrapped W` when the order is little-endian. -/
  | wrapped (order : ByteOrder) (width : Nat)
  /-- Every type the spec does not list (signed integers, floating point, ...), by its name: check WF4 fails. -/
  | unlisted (name : String)
  deriving DecidableEq, Repr

/-- A field descriptor `{name, span, value_type}` (10_state.md R15). The name has no effect on any operation. -/
structure FieldDescriptor where
  name : String
  span : BitSpan
  valueType : ValueType
  deriving DecidableEq, Repr

/-- The configuration: the ordered list `DESC` and the parameter `UINT_WIDTHS` (00_scope.md R7). -/
structure Config where
  /-- `DESC`: field `f` is the `f`-th entry, counted from 0 (10_state.md R15). -/
  desc : List FieldDescriptor
  /-- `UINT_WIDTHS`: the unsigned widths the configuration may use (92_eei_decisions.md D5, OPEN). -/
  uintWidths : List Nat
  deriving DecidableEq, Repr

/-- `F`, the number of field descriptors (00_scope.md R7). -/
abbrev Config.fieldCount (cfg : Config) : Nat := cfg.desc.length

/-- Configuration P of 95_test_vectors.md section 3. DESIGN CHOICE (log 2), unsafe for a claim about `State.reset` alone:
the spec leaves the configuration an argument of the model, and this one is the machine that `State.reset` names. The
widths 8, 16 and 32 are those the test vectors use. -/
def Config.configurationP : Config where
  desc :=
    [ { name := "en", span := .ofSingle 0, valueType := .bool },
      { name := "mode", span := .ofRange 1 4, valueType := .uint 8 },
      { name := "cnt", span := .ofRange 6 10, valueType := .uint 8 },
      { name := "addr", span := .ofRange 10 24, valueType := .uint 16 },
      { name := "top", span := .ofSingle 31, valueType := .bool } ]
  uintWidths := [8, 16, 32]

end Sys2Proof
end

