-- ==== Sys2Proof/Syntax.lean ====
section
/-! DEFINITION. The seven operations (30_encoding.md R52), the typed data of the ports (R51), the host's requests (R48)
and the reasons a request is refused for (60_exceptions.md R96). -/

namespace Sys2Proof

/-- The operations of the block, one constructor per row of the opcode table (30_encoding.md R52). -/
inductive Instr where
  /-- FILL_MASK: `lo` is the operand the spec calls `from`, `hi` the one it calls `to` (40_mask_engine.md R61). -/
  | fillMask (lo hi : Nat)
  /-- GET of field `f` (42_field_access.md R79). -/
  | get (f : Nat)
  /-- SET of field `f`, the value on data-in (42_field_access.md R82). -/
  | set (f : Nat)
  /-- DEFAULT (43_register_ops.md R90). -/
  | default
  /-- FROM, the bytes on data-in (43_register_ops.md R91). -/
  | fromBuf
  /-- DATA (43_register_ops.md R92). -/
  | data
  /-- CLONE (43_register_ops.md R93). -/
  | clone
  deriving DecidableEq, Repr

/-- A typed field value: an unsigned integer or a bool (30_encoding.md R51). Whether it is a value of a given field's
type, its width included, is checked when SET executes (R54 (e)). -/
inductive Value where
  | uint (v : Nat)
  | bool (b : Bool)
  deriving DecidableEq, Repr

/-- What the host presents on data-in: a value (SET) or a list of bytes (FROM) (30_encoding.md R51). -/
inductive DataIn where
  | value (v : Value)
  | bytes (bs : List Byte)
  deriving DecidableEq, Repr

/-- What an operation drives on data-out (30_encoding.md R51): one byte (FILL_MASK), one value (GET) or the `S` buffer
bytes, `buf[0]` first (DATA, CLONE). -/
inductive DataOut where
  | byte (b : Byte)
  | value (v : Value)
  | bytes (bs : List Byte)
  deriving DecidableEq, Repr

/-- One operation request: a command word and the data-in presented with it (30_encoding.md R48). -/
structure Request where
  word : Word
  dataIn : Option DataIn
  deriving DecidableEq, Repr

/-- The checks a configuration must pass (10_state.md R19). -/
inductive ConfigCheck where
  /-- WF1 (shape): exactly one of `Single` and `Range`. -/
  | wf1
  /-- WF2 (order): `start < end_exclusive`. -/
  | wf2
  /-- WF3 (width): every position in `0..255`. -/
  | wf3
  /-- WF4 (type): the value type is admitted by 41_value_codec.md R68. -/
  | wf4
  /-- WF5 (count): `F ≤ 4096`. -/
  | wf5
  deriving DecidableEq, Repr

/-- The refusal reasons with the info each records (60_exceptions.md R96). -/
inductive Reason where
  /-- The opcode is one of `0x7 .. 0xF`. -/
  | reservedOp (w : Word)
  /-- A reserved field of the word is nonzero. -/
  | reservedBits (w : Word)
  /-- FILL_MASK with `from > 8`, `to > 8` or `from > to`; records `(from, to)`. -/
  | maskArg (lo hi : Nat)
  /-- GET or SET of a field index that is not below `F`. -/
  | fieldIndex (f : Nat)
  /-- SET whose data-in is not a value of the field's type; records the index and the data-in. -/
  | valueType (f : Nat) (v : Option DataIn)
  /-- FROM whose data-in is not exactly `S` bytes; records the length given, none where the data-in is no list of bytes
  (DESIGN CHOICE, safe, log 5). -/
  | fromLength (given : Option Nat)
  /-- The configuration fails a check; records the check and the descriptor's index, none for WF5, which concerns no
  one descriptor (DESIGN CHOICE, safe, log 4). -/
  | config (check : ConfigCheck) (descriptor : Option Nat)
  deriving DecidableEq, Repr

/-- The code of a reason (60_exceptions.md R96). -/
def Reason.code : Reason → Nat
  | .reservedOp _ => 1
  | .reservedBits _ => 2
  | .maskArg _ _ => 3
  | .fieldIndex _ => 4
  | .valueType _ _ => 5
  | .fromLength _ => 6
  | .config _ _ => 7

end Sys2Proof
end

