-- ==== Sys2Proof/Machine/State.lean ====
section
/-! DEFINITION. The state of the block, its power-on reset, and the ways a step can stop (10_state.md R15, R20, R21, R29;
60_exceptions.md R96, R97; 70_reset_and_hazards.md R110). -/

namespace Sys2Proof.Machine

/-- The register buffer as the list of its nonzero bytes, addresses strictly rising: an unlisted address reads as `0x00`,
the value power-on gives every byte (10_state.md R29). -/
abbrev Memory := List Host.Cell

/-- The state of one instance of the block, together with its fixed configuration and its ports. -/
structure State where
  /-- The configuration, fixed before reset and written by no operation (10_state.md R15). -/
  cfg : Config
  /-- The register buffer `buf` (10_state.md R20). -/
  buf : Memory
  /-- The sticky mark (10_state.md R21). -/
  refused : Bool
  /-- The reason and info recorded by the refusal that set the mark (60_exceptions.md R96); none while the mark is
  false (DESIGN CHOICE, log 3). -/
  reason : Option Reason
  /-- The host's requests not yet issued, in issue order (20_memory.md R43; DESIGN CHOICE, log 1). -/
  requests : List Request
  /-- Data-in of the operation being performed (30_encoding.md R51; DESIGN CHOICE, log 1). -/
  dataIn : Option DataIn
  /-- Data-out of the last operation performed, none where it drove none (30_encoding.md R51; log 1). -/
  out : Option DataOut
  deriving DecidableEq, Repr

/-- The state at power-on of a block built with configuration `cfg`: every byte zero, the mark false (10_state.md R29;
70_reset_and_hazards.md R110). The configuration itself is fixed before (R112). -/
def State.powerOn (cfg : Config) : State where
  cfg := cfg
  buf := []
  refused := false
  reason := none
  requests := []
  dataIn := none
  out := none

/-- Power-on reset of the block built with configuration P of 95_test_vectors.md (DESIGN CHOICE of the configuration,
log 2). -/
def State.reset : State := .powerOn .configurationP

/-- The faults of the model. The block itself has none (60_exceptions.md R95). -/
inductive Fault where
  /-- Raised by GET and SET when the field's span has a byte outside the `S` bytes of the buffer: that address does not
  exist (20_memory.md R30). Safe (log 6): no operation of the block reaches it (R38), and no step of the model does. -/
  | outsideBuffer (byteIndex : Nat)
  deriving DecidableEq, Repr

/-- The refusals that leave no next state. (Codes 1 to 6 of 60_exceptions.md R96 do leave one: the state before with the
mark set, R100; see `State.refuse`.) -/
inductive Refusal where
  /-- Raised by `exec` for an operation that has no meaning yet. Safe: nothing can be proved of it. No arm uses it. -/
  | notModelled (mnemonic : String)
  /-- Raised at construction and by a step when the configuration fails a check of 10_state.md R19: "A configuration
  refused with `CONFIG` has no state at all and no operation" (60_exceptions.md R97). Safe. -/
  | config (check : ConfigCheck) (descriptor : Option Nat)
  /-- Raised by a step of a block whose mark is set: "After a refusal the block takes no further operation: the state is
  halted with the mark set, and it is not a normal end of a run" (60_exceptions.md R97). Safe. -/
  | halted
  deriving DecidableEq, Repr

/-- The outcome of one operation or one step. -/
abbrev Result := Host.Outcome State Fault Refusal

end Sys2Proof.Machine
end

