-- ==== Sys2Proof/Machine/Spans.lean ====
section
/-! DEFINITION. The derived properties of a span (10_state.md R17), its cut into segments, one per touched buffer byte
(20_memory.md R36, R37), and the size of the buffer (10_state.md R18). -/

namespace Sys2Proof

/-- `first_bit` (10_state.md R17). -/
def BitSpan.firstBit (sp : BitSpan) : Nat :=
  match sp.single, sp.range with
  | some bit, _ => bit
  | none, some (start, _) => start
  | none, none => 0

/-- `last_bit` (10_state.md R17). -/
def BitSpan.lastBit (sp : BitSpan) : Nat :=
  match sp.single, sp.range with
  | some bit, _ => bit
  | none, some (_, endExclusive) => endExclusive - 1
  | none, none => 0

/-- `bit_length` (10_state.md R17). -/
def BitSpan.bitLength (sp : BitSpan) : Nat := sp.lastBit - sp.firstBit + 1

/-- `byte_length`, the spec's `N`: `ceil(bit_length / 8)` (10_state.md R17). -/
def BitSpan.byteLength (sp : BitSpan) : Nat := (sp.bitLength + 7) / 8

/-- The offset `o` of the span in its first byte (20_memory.md R36). -/
def BitSpan.offset (sp : BitSpan) : Nat := sp.firstBit % 8

/-- `first_byte` (20_memory.md R36). -/
def BitSpan.firstByte (sp : BitSpan) : Nat := sp.firstBit / 8

/-- `last_byte` (20_memory.md R36). -/
def BitSpan.lastByte (sp : BitSpan) : Nat := sp.lastBit / 8

/-- `T`, the number of touched bytes (20_memory.md R36). -/
def BitSpan.touched (sp : BitSpan) : Nat := sp.lastByte - sp.firstByte + 1

/-- The part `[lo, hi)` of a span that lies in buffer byte `idx` (20_memory.md R36). -/
structure Segment where
  idx : Nat
  lo : Nat
  hi : Nat
  deriving DecidableEq, Repr

/-- Segment `k` of a span (20_memory.md R36). -/
def BitSpan.segment (sp : BitSpan) (k : Nat) : Segment where
  idx := sp.firstByte + k
  lo := if k = 0 then sp.offset else 0
  hi := if sp.firstByte + k = sp.lastByte then sp.lastBit % 8 + 1 else 8

/-- The segments of a span, in ascending order (20_memory.md R36). -/
def BitSpan.segments (sp : BitSpan) : List Segment := (List.range sp.touched).map sp.segment

/-- The first touched byte that lies outside a buffer of `size` bytes, if there is one (20_memory.md R38). -/
def BitSpan.firstOutside (sp : BitSpan) (size : Nat) : Option Nat :=
  (sp.segments.find? fun g => decide (size ≤ g.idx)).map Segment.idx

/-- The greatest `last_bit` over the descriptors, 0 over none (10_state.md R18). -/
def maxLastBit : List FieldDescriptor → Nat
  | [] => 0
  | d :: ds => max d.span.lastBit (maxLastBit ds)

/-- The register size `S` in bytes: `floor(max(last_bit) / 8) + 1`, and 0 for a register with no fields
(10_state.md R18; 90_conflicts.md C5). -/
def Config.size (cfg : Config) : Nat :=
  match cfg.desc with
  | [] => 0
  | d :: ds => maxLastBit (d :: ds) / 8 + 1

/-- The register size `S` of the block's buffer (10_state.md R18, R20). -/
def Machine.State.size (s : Machine.State) : Nat := s.cfg.size

end Sys2Proof
end

