-- ==== Sys2Proof/Machine/Ops.lean ====
section
/-! DEFINITION. The named operations over the buffer (00_scope.md R12), and the two ways an operation ends: it drives
data-out (or nothing) and completes, or it is refused (60_exceptions.md R97, R100). -/

namespace Sys2Proof.Machine

/-- `buf[i]`: an unlisted address reads as `0x00` (10_state.md R29). -/
def Memory.read : Memory → Nat → Byte
  | [], _ => 0#8
  | (a, v) :: m, i => if a = i then v else Memory.read m i

/-- The memory without any entry for address `i`. -/
def Memory.erase : Memory → Nat → Memory
  | [], _ => []
  | (a, v) :: m, i => if a = i then Memory.erase m i else (a, v) :: Memory.erase m i

/-- The memory with an entry put before the first greater address. -/
def Memory.insert (i : Nat) (b : Byte) : Memory → Memory
  | [] => [(i, b)]
  | (a, v) :: m => if i < a then (i, b) :: (a, v) :: m else (a, v) :: Memory.insert i b m

/-- `buf[i] <- b` (00_scope.md R12). Writing `0x00`, what an unlisted address reads as, removes the entry. -/
def Memory.write (m : Memory) (i : Nat) (b : Byte) : Memory :=
  if b = 0#8 then m.erase i else (m.erase i).insert i b

/-- `MemRead(i, n)` (00_scope.md R12). -/
def Memory.readBytes (m : Memory) (i n : Nat) : List Byte := (List.range n).map fun j => m.read (i + j)

/-- `MemWrite(i, n, bytes)`, `n` the length of the list (00_scope.md R12). -/
def Memory.writeBytes (m : Memory) (i : Nat) : List Byte → Memory
  | [] => m
  | b :: bs => (m.write i b).writeBytes (i + 1) bs

/-- `bufbit(b)`: absolute bit `b` is bit `b mod 8` of byte `b div 8` (00_scope.md R8, R12; 20_memory.md R33). -/
def Memory.bit (m : Memory) (b : Nat) : Bool := (m.read (b / 8)).getLsbD (b % 8)

/-- The canonical form: addresses strictly rising, no entry equal to what an unlisted address reads as. -/
abbrev Memory.wf (m : Memory) : Prop := m.Pairwise (fun c d => c.1 < d.1) ∧ ∀ c ∈ m, c.2 ≠ 0#8

/-- Every listed address lies below `size` (20_memory.md R30). -/
abbrev Memory.below (m : Memory) (size : Nat) : Prop := ∀ c ∈ m, c.1 < size

/-- The end of an operation that completes: it drives `o` on data-out, or nothing (00_scope.md R12; 30_encoding.md R51). -/
def State.respond (s : State) (o : Option DataOut) : State := { s with out := o }

/-- A refused operation: it writes no byte and drives no data-out, the mark is set and the reason recorded; the state is
otherwise the one before (60_exceptions.md R96, R97, R100). -/
def State.refuse (s : State) (r : Reason) : State := { s with refused := true, reason := some r, out := none }

/-- The end of an operation that replaces the buffer and drives no data-out. -/
def State.store (s : State) (m : Memory) : State := { s with buf := m, out := none }

end Sys2Proof.Machine
end

