-- ==== Sys2Proof/Machine/ValueCodec.lean ====
section
/-! DEFINITION. The value codec (41_value_codec.md): `decode_N` and `encode_N` of each value type. -/

namespace Sys2Proof.Machine

/-- The little-endian sum of `bytes[i] * 2^(8*i)` (41_value_codec.md R70). -/
def leValue : List Byte → Nat
  | [] => 0
  | b :: bs => b.toNat + 2 ^ 8 * leValue bs

/-- `encode_N` of an unsigned integer: byte `i` is `(v div 2^(8*i)) mod 256` (41_value_codec.md R71). -/
def leBytes (n v : Nat) : List Byte := (List.range n).map fun i => BitVec.ofNat 8 (v / 2 ^ (8 * i) % 256)

/-- `encode_N` of a bool: the value in bit 0 of byte 0, every other byte 0 (41_value_codec.md R73). -/
def boolBytes (n : Nat) (b : Bool) : List Byte := (List.range n).map fun i => if i = 0 ∧ b = true then 1#8 else 0#8

/-- `decode_N` of a value type, `N` the length of the list (41_value_codec.md R70, R74, R75). None for a type that fails
check WF4, which has no codec (R68, R76). -/
def decodeValue : ValueType → List Byte → Option Value
  | .uint w, va => some (.uint (leValue va % 2 ^ w))
  | .bool, va => some (.bool ((va.getD 0 0#8 &&& 1#8) == 1#8))
  | .wrapped .little w, va => some (.uint (leValue va % 2 ^ w))
  | .wrapped (.other _) _, _ => none
  | .unlisted _, _ => none

/-- The value is one of the type's values: a bool for `Bool`, an unsigned integer below `2^W` for `UInt W` and
`LEWrapped W` (30_encoding.md R51, R54 (e); 41_value_codec.md R68). -/
def hasValue : ValueType → Value → Bool
  | .uint w, .uint v => decide (v < 2 ^ w)
  | .bool, .bool _ => true
  | .wrapped .little w, .uint v => decide (v < 2 ^ w)
  | .uint _, .bool _ => false
  | .bool, .uint _ => false
  | .wrapped .little _, .bool _ => false
  | .wrapped (.other _) _, _ => false
  | .unlisted _, _ => false

/-- `encode_N` of a value of its type (41_value_codec.md R71, R73, R75). -/
def encodeValue (n : Nat) : Value → List Byte
  | .uint v => leBytes n v
  | .bool b => boolBytes n b

end Sys2Proof.Machine
end

