-- ==== Sys2Proof/Machine/Operands.lean ====
section
/-! DEFINITION. The operands an operation takes from its port and its word: the data-in of SET and FROM (30_encoding.md R51,
R54), the field a GET or SET names (R50, R54 (d)), and the all-zero data-in of an instruction. -/

namespace Sys2Proof.Machine

/-- Data-in as a value of the type, none if it is not one (30_encoding.md R54 (e)). -/
def State.valueOperand (s : State) (ty : ValueType) : Option Value :=
  match s.dataIn with
  | some (.value v) => if hasValue ty v then some v else none
  | some (.bytes _) => none
  | none => none

/-- Data-in as a list of bytes, none if it is not one (30_encoding.md R54 (f)). -/
def State.bytesOperand (s : State) : Option (List Byte) :=
  match s.dataIn with
  | some (.bytes bs) => some bs
  | some (.value _) => none
  | none => none

/-- GET and SET reach descriptor `d_f`: an index `f ≥ F` is refused with `FIELD_INDEX` (42_field_access.md R79, R82). A
span with a byte outside the buffer faults before any access; no well-formed configuration has one (20_memory.md R38;
log 6). -/
def State.withField (s : State) (f : Nat) (use : FieldDescriptor → Result) : Result :=
  match s.cfg.desc[f]? with
  | none => .next (s.refuse (.fieldIndex f))
  | some d =>
    match d.span.firstOutside s.size with
    | some idx => .fault (.outsideBuffer idx)
    | none => use d

/-- The zero value of a type: `false` for `Bool`, 0 for the others (43_register_ops.md R90). -/
def zeroValue : ValueType → Value
  | .bool => .bool false
  | .uint _ => .uint 0
  | .wrapped _ _ => .uint 0
  | .unlisted _ => .uint 0

/-- The data-in that is all zero for an instruction: the zero value of the field's type for SET, `S` zero bytes for FROM,
nothing for an operation that takes none (30_encoding.md R51). -/
def State.zeroOperand (s : State) : Instr → Option DataIn
  | .set f => (s.cfg.desc[f]?).map fun d => .value (zeroValue d.valueType)
  | .fromBuf => some (.bytes (List.replicate s.size 0#8))
  | .fillMask _ _ => none
  | .get _ => none
  | .default => none
  | .data => none
  | .clone => none

end Sys2Proof.Machine
end

