-- ==== Sys2Proof/Machine/Container.lean ====
section
/-! DEFINITION. The register container's operations DEFAULT, FROM, DATA and CLONE (43_register_ops.md). -/

namespace Sys2Proof.Machine

/-- DEFAULT (43_register_ops.md R90). -/
def execDefault (s : State) : Result :=
  .next (s.store (s.buf.writeBytes 0 (List.replicate s.size 0#8)))

/-- FROM (43_register_ops.md R91). -/
def execFromBuf (s : State) : Result :=
  match s.bytesOperand with
  | some bs =>
    if bs.length = s.size then .next (s.store (s.buf.writeBytes 0 bs))
    else .next (s.refuse (.fromLength (some bs.length)))
  | none => .next (s.refuse (.fromLength none))

/-- DATA (43_register_ops.md R92). -/
def execData (s : State) : Result :=
  .next (s.respond (some (.bytes (s.buf.readBytes 0 s.size))))

/-- CLONE: the copy goes out, the instance stays as it was (43_register_ops.md R93). The host builds the second instance
with FROM of the copy (`constructFrom`). -/
def execClone (s : State) : Result :=
  .next (s.respond (some (.bytes (s.buf.readBytes 0 s.size))))

end Sys2Proof.Machine
end

