-- ==== Sys2Proof/Machine/MaskEngine.lean ====
section
/-! DEFINITION. The sub-byte mask and shift engine (40_mask_engine.md): `fill_mask`, the FILL_MASK operation, and the byte
helpers `extract_byte`, `raw_byte`, `write_mask` and `merge_byte`. -/

namespace Sys2Proof.Machine

/-- `shl8(x, n)`: drops every bit shifted past bit 7; `shl8(x, 8) = 0` (00_scope.md R10). -/
def shl8 (x : Byte) (n : Nat) : Byte := x <<< n

/-- `shr8(x, n)`: logical; `shr8(x, 8) = 0` (00_scope.md R10). -/
def shr8 (x : Byte) (n : Nat) : Byte := x >>> n

/-- `fill_mask(from, to)`: the sum of `2^i` over `i` in `from .. to-1` (40_mask_engine.md R59). -/
def fillMask (lo hi : Nat) : Byte := BitVec.ofNat 8 ((List.range' lo (hi - lo)).map (2 ^ ·)).sum

/-- FILL_MASK (40_mask_engine.md R61). -/
def execFillMask (lo hi : Nat) (s : State) : Result :=
  if lo > 8 ∨ hi > 8 ∨ lo > hi then .next (s.refuse (.maskArg lo hi))
  else .next (s.respond (some (.byte (fillMask lo hi))))

/-- `extract_byte(a, len)`, its cases A, B and C in order (40_mask_engine.md R62; 90_conflicts.md C2). -/
def extractByte (m : Memory) (a len : Nat) : Byte :=
  let idx := a / 8
  let o := a % 8
  if o = 0 ∧ o + len ≤ 8 then m.read idx &&& fillMask 0 len
  else if o ≠ 0 ∧ o + len ≤ 8 then shr8 (m.read idx &&& fillMask o (o + len)) o
  else
    let low := shr8 (m.read idx &&& fillMask o 8) o
    let high := shl8 (m.read (idx + 1) &&& fillMask 0 (o + len - 8)) (8 - o)
    low ||| high

/-- `va'(j)`, the extended value array: 0 outside the list, also at negative `j` (00_scope.md R13). -/
def extended (va : List Byte) : Int → Byte
  | .ofNat j => va.getD j 0#8
  | .negSucc _ => 0#8

/-- `raw_byte(va, o, k)` (40_mask_engine.md R64). -/
def rawByte (va : List Byte) (o k : Nat) : Byte :=
  shl8 (extended va k) o ||| shr8 (extended va ((k : Int) - 1)) (8 - o)

/-- `vbit(j)`: bit `j mod 8` of `va'(j div 8)`, and 0 for negative `j` (40_mask_engine.md R65). -/
def valueBit (va : List Byte) : Int → Bool
  | .ofNat j => (va.getD (j / 8) 0#8).getLsbD (j % 8)
  | .negSucc _ => false

/-- `write_mask(k)` of a span (40_mask_engine.md R66; 90_conflicts.md C3). -/
def writeMask (sp : BitSpan) (k : Nat) : Byte := fillMask (sp.segment k).lo (sp.segment k).hi

/-- `merge_byte(old, raw, mask)` (40_mask_engine.md R67). -/
def mergeByte (old raw mask : Byte) : Byte := (old &&& ~~~mask) ||| (raw &&& mask)

end Sys2Proof.Machine
end

