-- ==== Sys2Proof/Machine/FieldAccess.lean ====
section
/-! DEFINITION. The field accessor: GET and SET (42_field_access.md). -/

namespace Sys2Proof.Machine

/-- The value array of a span in a buffer (42_field_access.md R77). -/
def valueArray (m : Memory) (sp : BitSpan) : List Byte :=
  (List.range sp.byteLength).map fun i => extractByte m (sp.firstBit + 8 * i) (min 8 (sp.bitLength - 8 * i))

/-- GET of descriptor `d`, the `f`-th (42_field_access.md R79). A type without a codec fails check WF4; its field has no
meaning (41_value_codec.md R68). -/
def getField (f : Nat) (s : State) (d : FieldDescriptor) : Result :=
  match decodeValue d.valueType (valueArray s.buf d.span) with
  | some v => .next (s.respond (some (.value v)))
  | none => .refused (.config .wf4 (some f))

/-- GET (42_field_access.md R79). -/
def execGet (f : Nat) (s : State) : Result := s.withField f (getField f s)

/-- The new contents of the touched bytes when value array `va` is written into a span (42_field_access.md R81). -/
def mergedBytes (m : Memory) (sp : BitSpan) (va : List Byte) : List Byte :=
  (List.range sp.touched).map fun k =>
    mergeByte (m.read (sp.segment k).idx) (rawByte va sp.offset k) (writeMask sp k)

/-- The write of value array `va` into a span: every touched byte is read, then every one is written (42_field_access.md
R81). -/
def writeField (m : Memory) (sp : BitSpan) (va : List Byte) : Memory :=
  m.writeBytes sp.firstByte (mergedBytes m sp va)

/-- SET of descriptor `d`, the `f`-th (42_field_access.md R82). -/
def setField (f : Nat) (s : State) (d : FieldDescriptor) : Result :=
  match s.valueOperand d.valueType with
  | some v => .next (s.store (writeField s.buf d.span (encodeValue d.span.byteLength v)))
  | none => .next (s.refuse (.valueType f s.dataIn))

/-- SET (42_field_access.md R82). -/
def execSet (f : Nat) (s : State) : Result := s.withField f (setField f s)

end Sys2Proof.Machine
end

