-- ==== Sys2Proof/Machine/Dispatch.lean ====
section
/-! DEFINITION. The meaning of each operation (30_encoding.md R52), one arm per row of the opcode table. -/

namespace Sys2Proof.Machine

def exec (i : Instr) (s : State) : Host.Outcome State Fault Refusal :=
  match i with
  | .fillMask lo hi => Sys2Proof.Machine.execFillMask lo hi s
  | .get f => Sys2Proof.Machine.execGet f s
  | .set f => Sys2Proof.Machine.execSet f s
  | .default => Sys2Proof.Machine.execDefault s
  | .fromBuf => Sys2Proof.Machine.execFromBuf s
  | .data => Sys2Proof.Machine.execData s
  | .clone => Sys2Proof.Machine.execClone s

end Sys2Proof.Machine
end

