-- ==== Sys2Proof/WellFormed.lean ====
section
/-! DEFINITION. Which instructions a command word can hold: each operand fits its field of the word (30_encoding.md R49,
R50). The checks of a configuration (10_state.md R19) are in Machine/Configure.lean. -/

namespace Sys2Proof

/-- Each operand fits the bits its format gives it: 4 bits for a mask bound, 12 for a field index (30_encoding.md R50).
The tighter bounds (`from ≤ to ≤ 8`, `f < F`) are checked when the operation executes (R53). -/
def Instr.wf : Instr → Bool
  | .fillMask lo hi => decide (lo < 16) && decide (hi < 16)
  | .get f => decide (f < 4096)
  | .set f => decide (f < 4096)
  | .default => true
  | .fromBuf => true
  | .data => true
  | .clone => true

end Sys2Proof
end

