-- ==== Sys2Proof/Decode.lean ====
section
/-! DEFINITION. The decoder, total on all 65536 command words, the encoder, and the match and mask of each opcode
(30_encoding.md R48 to R55). -/

namespace Sys2Proof

/-- `w[hi:lo]`: bits `lo` to `hi` inclusive, moved down so that bit `lo` becomes bit 0 (00_scope.md R11). -/
def slice (w : Word) (hi lo : Nat) : Nat := w.toNat / 2 ^ lo % 2 ^ (hi - lo + 1)

/-- A word of format Z: the operand field `w[11:0]` is reserved and must be 0 (30_encoding.md R49, R54 (b)). -/
def decodeZ (w : Word) (i : Instr) : Except Reason Instr :=
  if slice w 11 0 = 0 then .ok i else .error (.reservedBits w)

/-- The decoder (30_encoding.md R53). -/
def decode (w : Word) : Except Reason Instr :=
  match slice w 15 12 with
  | 0 => if slice w 11 8 = 0 then .ok (.fillMask (slice w 3 0) (slice w 7 4)) else .error (.reservedBits w)
  | 1 => .ok (.get (slice w 11 0))
  | 2 => .ok (.set (slice w 11 0))
  | 3 => decodeZ w .default
  | 4 => decodeZ w .fromBuf
  | 5 => decodeZ w .data
  | 6 => decodeZ w .clone
  | _ => .error (.reservedOp w)

/-- The opcode `w[15:12]` of each operation (30_encoding.md R52). -/
def Instr.opcode : Instr → Nat
  | .fillMask _ _ => 0x0
  | .get _ => 0x1
  | .set _ => 0x2
  | .default => 0x3
  | .fromBuf => 0x4
  | .data => 0x5
  | .clone => 0x6

/-- The operand field `w[11:0]` of each operation (30_encoding.md R49): format M holds `to` in `w[7:4]` and `from` in
`w[3:0]`, format F the field index, format Z zero. -/
def Instr.operandField : Instr → Nat
  | .fillMask lo hi => hi * 16 + lo
  | .get f => f
  | .set f => f
  | .default => 0
  | .fromBuf => 0
  | .data => 0
  | .clone => 0

/-- The command word of a well-formed operation (30_encoding.md R49, R52). -/
def encode (i : Instr) : Word := BitVec.ofNat 16 (i.opcode * 4096 + i.operandField)

/-- The match of the operation's row (30_encoding.md R52). -/
def Instr.matchWord : Instr → Word
  | .fillMask _ _ => 0x0000#16
  | .get _ => 0x1000#16
  | .set _ => 0x2000#16
  | .default => 0x3000#16
  | .fromBuf => 0x4000#16
  | .data => 0x5000#16
  | .clone => 0x6000#16

/-- The mask of the operation's row (30_encoding.md R52). -/
def Instr.maskWord : Instr → Word
  | .fillMask _ _ => 0xFF00#16
  | .get _ => 0xF000#16
  | .set _ => 0xF000#16
  | .default => 0xFFFF#16
  | .fromBuf => 0xFFFF#16
  | .data => 0xFFFF#16
  | .clone => 0xFFFF#16

/-- The command word whose bits the opcode table numbers as `w`: a request is one 16-bit word (30_encoding.md R48), bits
from `nbits` on are 0. -/
def tableWord (nbits w : Nat) : Word := BitVec.ofNat 16 (w % 2 ^ nbits)

/-- The instruction the decoder reads from the table's bits `w`, none where it refuses the word. -/
def decodeTableWord (nbits w : Nat) : Option Instr :=
  match decode (tableWord nbits w) with
  | .ok i => some i
  | .error _ => none

end Sys2Proof
end

