-- ==== Sys2Proof/Machine/Configure.lean ====
section
/-! DEFINITION. The checks WF1 to WF5 of a configuration (10_state.md R19; 41_value_codec.md R68, R76). -/

namespace Sys2Proof

/-- WF1 (shape): exactly one of `Single` and `Range` (10_state.md R19). -/
def BitSpan.shapeOk (sp : BitSpan) : Bool :=
  match sp.single, sp.range with
  | some _, none => true
  | none, some _ => true
  | some _, some _ => false
  | none, none => false

/-- WF2 (order): a `Range` has `start < end_exclusive` (10_state.md R19). -/
def BitSpan.orderOk (sp : BitSpan) : Bool :=
  match sp.range with
  | some (start, endExclusive) => decide (start < endExclusive)
  | none => true

/-- WF3 (width): every position is in `0..255` (10_state.md R16, R19). -/
def BitSpan.widthOk (sp : BitSpan) : Bool :=
  (match sp.single with
    | some bit => decide (bit ≤ 255)
    | none => true) &&
  (match sp.range with
    | some (start, endExclusive) => decide (start ≤ 255) && decide (endExclusive ≤ 255)
    | none => true)

/-- The widths `W = 8*M`, `M ≥ 1`, of the parameter set (41_value_codec.md R68). -/
def widthAdmitted (widths : List Nat) (w : Nat) : Bool :=
  decide (0 < w) && decide (w % 8 = 0) && widths.contains w

/-- WF4 (type): the value type is admitted (41_value_codec.md R68, R76). -/
def ValueType.admitted (widths : List Nat) : ValueType → Bool
  | .uint w => widthAdmitted widths w
  | .bool => true
  | .wrapped .little w => widthAdmitted widths w
  | .wrapped (.other _) _ => false
  | .unlisted _ => false

/-- The first check among WF1 to WF4 that a descriptor fails (10_state.md R19). -/
def FieldDescriptor.check (widths : List Nat) (d : FieldDescriptor) : Option ConfigCheck :=
  if d.span.shapeOk = false then some .wf1
  else if d.span.orderOk = false then some .wf2
  else if d.span.widthOk = false then some .wf3
  else if d.valueType.admitted widths = false then some .wf4
  else none

/-- The first failing descriptor of a list whose head has index `f`, with its first failing check. -/
def checkDescriptors (widths : List Nat) : Nat → List FieldDescriptor → Option (ConfigCheck × Option Nat)
  | _, [] => none
  | f, d :: ds =>
    match d.check widths with
    | some c => some (c, some f)
    | none => checkDescriptors widths (f + 1) ds

/-- The failure a configuration is refused with, none if it is well-formed (10_state.md R19; 60_exceptions.md R96). Where
several checks fail, the one reported is that of the first failing descriptor, its first failing check, WF5 last
(DESIGN CHOICE, safe, log 4). -/
def Config.check (cfg : Config) : Option (ConfigCheck × Option Nat) :=
  match checkDescriptors cfg.uintWidths 0 cfg.desc with
  | some e => some e
  | none => if cfg.desc.length ≤ 4096 then none else some (.wf5, none)

/-- The configuration passes WF1 to WF5 (10_state.md R19). -/
abbrev Config.WellFormed (cfg : Config) : Prop := cfg.check = none

end Sys2Proof
end

