-- ==== Sys2Proof/Machine/Issue.lean ====
section
/-! DEFINITION. What a step does before an operation executes: the configuration, the mark and the host's next request
(60_exceptions.md R97, R98; 20_memory.md R43). -/

namespace Sys2Proof.Machine

/-- What a step finds to do. -/
inductive Fetched where
  /-- There is no next state. -/
  | stop (r : Refusal)
  /-- The host has issued nothing (60_exceptions.md R109). -/
  | idle
  /-- The command word is refused at decode; `s` has taken the request. -/
  | reject (r : Reason) (s : State)
  /-- The command word is an operation; `s` has taken the request. -/
  | run (i : Instr) (s : State)
  deriving DecidableEq, Repr

/-- The block takes the host's next request: the rest waits, its data-in stands on the port (30_encoding.md R48, R51). -/
def State.take (s : State) (r : Request) (rest : List Request) : State :=
  { s with requests := rest, dataIn := r.dataIn }

/-- The order of 60_exceptions.md R98: the configuration first, then (a halted block takes no further operation, R97) the
mark, then the word of the next request. -/
def fetch (s : State) : Fetched :=
  match s.cfg.check with
  | some (c, d) => .stop (.config c d)
  | none =>
    if s.refused = true then .stop .halted
    else
      match s.requests with
      | [] => .idle
      | r :: rest =>
        match decode r.word with
        | .ok i => .run i (s.take r rest)
        | .error e => .reject e (s.take r rest)

/-- The state with a request put before all others. -/
def State.issue (s : State) (r : Request) : State := { s with requests := r :: s.requests }

/-- The all-zero data-in of the instruction a word holds. -/
def State.zeroDataIn (s : State) (w : Word) : Option DataIn :=
  match decode w with
  | .ok i => s.zeroOperand i
  | .error _ => none

end Sys2Proof.Machine
end

