-- ==== Sys2Proof/Machine/Step.lean ====
section
/-! DEFINITION. One step of the block: one operation request, one atomic transformation (00_scope.md R6; 20_memory.md R41,
R43). -/

namespace Sys2Proof.Machine

/-- One step. A block with no request pending holds its state (60_exceptions.md R109); a word refused at decode is a
refused operation (60_exceptions.md R96, R97). -/
def step (s : State) : Host.Outcome State Fault Refusal :=
  match fetch s with
  | .stop r => .refused r
  | .idle => .next s
  | .reject r t => .next (t.refuse r)
  | .run i t => exec i t

/-- The host issues the command word whose table bits are `w`, with all-zero data-in, as the next request (log 1). The
configuration, the buffer and the mark stay as they are. -/
def State.withFetchWord (s : State) (nbits w : Nat) : State :=
  s.issue { word := tableWord nbits w, dataIn := s.zeroDataIn (tableWord nbits w) }

end Sys2Proof.Machine
end

