-- ==== Sys2Proof/Machine/Assembler.lean ====
section
/-! DEFINITION. The textual form of the operations and the request each line stands for (30_encoding.md R56, R57). The
machine never reads text: this is how a host writes requests. What R56 leaves open of the text is in log 7. -/

namespace Sys2Proof.Machine

/-- White space inside a line (DESIGN CHOICE, safe, log 7). -/
def isBlank (c : Char) : Bool := c == ' ' || c == '\t' || c == '\r'

/-- The text without white space at its ends. -/
def trimBlank (l : List Char) : List Char := ((l.dropWhile isBlank).reverse.dropWhile isBlank).reverse

/-- The parts of a text between occurrences of a separator. -/
def splitAtChar (sep : Char) : List Char → List (List Char)
  | [] => [[]]
  | c :: cs =>
    if c = sep then [] :: splitAtChar sep cs
    else
      match splitAtChar sep cs with
      | [] => [[c]]
      | p :: ps => (c :: p) :: ps

/-- The value of a digit, hexadecimal ones in either case. -/
def digitValue (c : Char) : Option Nat :=
  if '0' ≤ c ∧ c ≤ '9' then some (c.toNat - '0'.toNat)
  else if 'a' ≤ c ∧ c ≤ 'f' then some (c.toNat - 'a'.toNat + 10)
  else if 'A' ≤ c ∧ c ≤ 'F' then some (c.toNat - 'A'.toNat + 10)
  else none

/-- The digits of a base read on from a value. -/
def digitsFrom (base acc : Nat) : List Char → Option Nat
  | [] => some acc
  | c :: cs =>
    match digitValue c with
    | some d => if d < base then digitsFrom base (acc * base + d) cs else none
    | none => none

/-- A decimal, `0x` hexadecimal or `0b` binary unsigned literal: the bases R56 gives for `<value>` (30_encoding.md R56). -/
def parseLiteral : List Char → Option Nat
  | [] => none
  | '0' :: 'x' :: c :: cs => digitsFrom 16 0 (c :: cs)
  | '0' :: 'b' :: c :: cs => digitsFrom 2 0 (c :: cs)
  | c :: cs => digitsFrom 10 0 (c :: cs)

/-- The index of the first descriptor with a name, in `DESC` order (30_encoding.md R56). -/
def fieldNamed (name : List Char) : List FieldDescriptor → Option Nat
  | [] => none
  | d :: ds => if d.name.toList = name then some 0 else (fieldNamed name ds).map (· + 1)

/-- `<field>`: `#<n>` or a descriptor's name (30_encoding.md R56). That `n` is read in decimal only, and that an index no word
can hold is no operand, is the model's choice: R56 gives number bases for `<value>` alone (DESIGN CHOICE, safe, log 7). -/
def parseField (cfg : Config) : List Char → Option Nat
  | '#' :: ds =>
    match digitsFrom 10 0 ds with
    | some n => if ds ≠ [] ∧ n < 4096 then some n else none
    | none => none
  | name => fieldNamed name cfg.desc

/-- `<value>`: an unsigned literal, `true` or `false` (30_encoding.md R56). Whether it fits the field is checked when SET
executes (R54 (e)). -/
def parseValue (l : List Char) : Option Value :=
  if l = "true".toList then some (.bool true)
  else if l = "false".toList then some (.bool false)
  else (parseLiteral l).map .uint

/-- A byte literal: an integer in `0..255` (30_encoding.md R56). R56 gives it no number base; the model reads it in those of
`<value>` (DESIGN CHOICE, safe, log 7). -/
def parseByte (l : List Char) : Option Byte :=
  match parseLiteral l with
  | some n => if n < 256 then some (BitVec.ofNat 8 n) else none
  | none => none

/-- The byte literals of a list of operands, none if one of them is not. -/
def parseBytes : List (List Char) → Option (List Byte)
  | [] => some []
  | l :: ls =>
    match parseByte l, parseBytes ls with
    | some b, some bs => some (b :: bs)
    | _, _ => none

/-- The request of an operation without data-in. -/
def plainRequest (i : Instr) : Request := { word := encode i, dataIn := none }

/-- The request a mnemonic and its operands stand for, each mnemonic exactly one command word (30_encoding.md R56, R57). R56
gives the bounds of `fill_mask` no number base; the model reads them in those of `<value>` (DESIGN CHOICE, safe, log 7). -/
def assembleOperation (cfg : Config) (mnemonic : List Char) (operands : List (List Char)) : Option Request :=
  if mnemonic = "fill_mask".toList then
    match operands with
    | [a, b] =>
      match parseLiteral a, parseLiteral b with
      | some lo, some hi => if lo ≤ hi ∧ hi ≤ 8 then some (plainRequest (.fillMask lo hi)) else none
      | _, _ => none
    | _ => none
  else if mnemonic = "get".toList then
    match operands with
    | [a] => (parseField cfg a).map fun f => plainRequest (.get f)
    | _ => none
  else if mnemonic = "set".toList then
    match operands with
    | [a, b] =>
      match parseField cfg a, parseValue b with
      | some f, some v => some { word := encode (.set f), dataIn := some (.value v) }
      | _, _ => none
    | _ => none
  else if mnemonic = "default".toList then
    if operands = [] then some (plainRequest .default) else none
  else if mnemonic = "from".toList then
    match parseBytes operands with
    | some bs =>
      if bs.length = cfg.size then some { word := encode .fromBuf, dataIn := some (.bytes bs) } else none
    | none => none
  else if mnemonic = "data".toList then
    if operands = [] then some (plainRequest .data) else none
  else if mnemonic = "clone".toList then
    if operands = [] then some (plainRequest .clone) else none
  else none

/-- The operands after a mnemonic: separated by commas, none in an empty text (30_encoding.md R56). Blanks are taken off the ends
of an operand only, so a field name with blanks inside it is read whole and resolves by name; R56 is silent on blanks in
names (DESIGN CHOICE, safe, log 7). -/
def splitOperands (l : List Char) : List (List Char) :=
  if trimBlank l = [] then [] else (splitAtChar ',' l).map trimBlank

/-- The requests of one line: none or one, a `;` starts a comment (30_encoding.md R56). No result where the line is not of
the syntax. -/
def assembleLine (cfg : Config) (line : List Char) : Option (List Request) :=
  match trimBlank (line.takeWhile (· ≠ ';')) with
  | [] => some []
  | text =>
    (assembleOperation cfg (text.takeWhile fun c => !isBlank c) (splitOperands (text.dropWhile fun c => !isBlank c))).map
      fun r => [r]

/-- The requests of a list of lines, in order. -/
def assembleLines (cfg : Config) : List (List Char) → Option (List Request)
  | [] => some []
  | l :: ls =>
    match assembleLine cfg l, assembleLines cfg ls with
    | some rs, some rest => some (rs ++ rest)
    | _, _ => none

/-- The requests of a program, one operation per line (30_encoding.md R56). -/
def assemble (cfg : Config) (text : String) : Option (List Request) :=
  assembleLines cfg (splitAtChar '\n' text.toList)

end Sys2Proof.Machine
end

