-- ==== Sys2Proof/Machine/Construct.lean ====
section
/-! DEFINITION. How an instance comes into being (70_reset_and_hazards.md R111, R112). -/

namespace Sys2Proof.Machine

/-- Power-on of a block built with a configuration: an ill-formed one is refused with `CONFIG` and has no state
(60_exceptions.md R97; 70_reset_and_hazards.md R111 (a), R112). -/
def construct (cfg : Config) : Result :=
  match cfg.check with
  | some (c, d) => .refused (.config c d)
  | none => .next (.powerOn cfg)

/-- Power-on followed at once by FROM of the caller's bytes (70_reset_and_hazards.md R111 (b)). -/
def constructFrom (cfg : Config) (bs : List Byte) : Result :=
  match construct cfg with
  | .next s => execFromBuf { s with dataIn := some (.bytes bs) }
  | .fault r => .fault r
  | .refused r => .refused r

end Sys2Proof.Machine
end

