-- ==== Sys2Proof/Safety.lean ====
section
/-! DEFINITION. The invariant of the block's state, what counts as a safe outcome, and the spec's own terms for what a field
holds, in which the claims are stated. -/

namespace Sys2Proof.Machine

/-- What every state of a built block satisfies: its configuration is well-formed (10_state.md R19); the buffer is in
canonical form with nothing outside its `S` bytes (20_memory.md R30, R38); the mark is set exactly when a reason is
recorded (60_exceptions.md R96, R97), which is never `CONFIG`; a refused operation drove no data-out (R97). -/
structure State.Inv (s : State) : Prop where
  config : s.cfg.WellFormed
  canonical : s.buf.wf
  inside : s.buf.below s.size
  marked : s.refused = s.reason.isSome
  recorded : ∀ r, s.reason = some r → r.code ≤ 6
  silent : s.refused = true → s.out = none

/-- A block that takes its next request: well configured and not halted (60_exceptions.md R97). -/
abbrev State.Ready (s : State) : Prop := s.cfg.WellFormed ∧ s.refused = false

/-- The outcome is a next state. -/
def Completes (o : Result) : Prop := ∃ t, o = .next t

/-- The outcome is no fault (60_exceptions.md R95). -/
def NoFault (o : Result) : Prop := ∀ e, o ≠ .fault e

/-- A span that passes WF1, WF2 and WF3 (10_state.md R19). -/
abbrev SpanOk (sp : BitSpan) : Prop := sp.shapeOk = true ∧ sp.orderOk = true ∧ sp.widthOk = true

/-- The type is `UInt W` or `LEWrapped W` (41_value_codec.md R68). -/
abbrev IsUnsigned (ty : ValueType) (w : Nat) : Prop := ty = .uint w ∨ ty = .wrapped .little w

/-- The integer a span holds: the sum of `bufbit(first_bit + j) * 2^j` over `j` in `0 .. bit_length-1` (42_field_access.md
R78). -/
def fieldInteger (m : Memory) (sp : BitSpan) : Nat :=
  ((List.range sp.bitLength).map fun j => (m.bit (sp.firstBit + j)).toNat * 2 ^ j).sum

/-- No absolute bit belongs to both spans (42_field_access.md R84). -/
abbrev SpansDisjoint (a b : BitSpan) : Prop := a.lastBit < b.firstBit ∨ b.lastBit < a.firstBit

end Sys2Proof.Machine
end

