-- ==== Sys2Proof/Certificates/Slice0/Obligations.lean ====
section
/-! DEFINITION. The statements for the provers. Each says in its docstring which rule of spec/ it formalises or rests on; a
clause that is the model's own choice names its log entry. -/

open Sys2Proof Sys2Proof.Machine

/-! ### Encoding (30_encoding.md) -/

/-- Every well-formed operation is read back from its own command word, with every operand at every value its format admits
(30_encoding.md R49, R50, R52, R53). -/
def Obligations.DecodeInvertsEncode : Prop :=
  ∀ i : Instr, i.wf = true → decode (encode i) = .ok i

/-- Every word that decodes is the command word of the operation it decodes to, which is well-formed: no bit of a word is
dropped (30_encoding.md R49, R50, R53). -/
def Obligations.EncodeInvertsDecode : Prop :=
  ∀ (w : Word) (i : Instr), decode w = .ok i → i.wf = true ∧ encode i = w

/-- The decoder of R53 on all 65536 words, the opcode and the operand field written as quotient and remainder. -/
def Obligations.DecodeIsTotalAsTabulated : Prop :=
  ∀ w : Word,
    (w.toNat / 4096 = 0 → w.toNat % 4096 / 256 = 0 → decode w = .ok (.fillMask (w.toNat % 16) (w.toNat / 16 % 16))) ∧
    (w.toNat / 4096 = 0 → w.toNat % 4096 / 256 ≠ 0 → decode w = .error (.reservedBits w)) ∧
    (w.toNat / 4096 = 1 → decode w = .ok (.get (w.toNat % 4096))) ∧
    (w.toNat / 4096 = 2 → decode w = .ok (.set (w.toNat % 4096))) ∧
    (w.toNat / 4096 = 3 → w.toNat % 4096 = 0 → decode w = .ok .default) ∧
    (w.toNat / 4096 = 4 → w.toNat % 4096 = 0 → decode w = .ok .fromBuf) ∧
    (w.toNat / 4096 = 5 → w.toNat % 4096 = 0 → decode w = .ok .data) ∧
    (w.toNat / 4096 = 6 → w.toNat % 4096 = 0 → decode w = .ok .clone) ∧
    (3 ≤ w.toNat / 4096 → w.toNat / 4096 ≤ 6 → w.toNat % 4096 ≠ 0 → decode w = .error (.reservedBits w)) ∧
    (7 ≤ w.toNat / 4096 → decode w = .error (.reservedOp w))

/-- A word decodes to an operation of a row exactly when it meets that row's match under its mask (30_encoding.md R52). -/
def Obligations.DecodeAgreesWithMatchAndMask : Prop :=
  ∀ (w : Word) (i : Instr),
    w &&& i.maskWord = i.matchWord ↔ ∃ j : Instr, decode w = .ok j ∧ j.opcode = i.opcode

/-- Words the spec writes out (30_encoding.md R56; 95_test_vectors.md D-FM-2, D-DC-1, D-DC-4, D-DC-6, D-RG-1, D-RG-2,
D-FM-8) decode as it says. -/
def Obligations.SpecWordsDecode : Prop :=
  decode 0x0062#16 = .ok (.fillMask 2 6) ∧ decode 0x1003#16 = .ok (.get 3) ∧ decode 0x2000#16 = .ok (.set 0) ∧
    decode 0x3000#16 = .ok .default ∧ decode 0x4000#16 = .ok .fromBuf ∧ decode 0x5000#16 = .ok .data ∧
    decode 0x6000#16 = .ok .clone ∧ decode 0x7000#16 = .error (.reservedOp 0x7000#16) ∧
    decode 0x5001#16 = .error (.reservedBits 0x5001#16) ∧ decode 0x0180#16 = .error (.reservedBits 0x0180#16)

/-- A field's name in the text resolves to the first descriptor with that name in `DESC` order (30_encoding.md R56). -/
def Obligations.FieldNameIsFirstDescriptorSoNamed : Prop :=
  ∀ (name : List Char) (ds : List FieldDescriptor) (f : Nat),
    fieldNamed name ds = some f ↔
      (∃ d, ds[f]? = some d ∧ d.name.toList = name) ∧ ∀ g d, g < f → ds[g]? = some d → d.name.toList ≠ name

/-- The example lines of 30_encoding.md R56, under every configuration: `get #3` is `0x1003`, `set #0, 15` is `0x2000` with
data-in 15, `fill_mask 2, 6` is `0x0062`, `clone` is `0x6000`. -/
def Obligations.ExampleLinesAssemble : Prop :=
  ∀ cfg : Config,
    assemble cfg "get #3" = some [{ word := 0x1003#16, dataIn := none }] ∧
    assemble cfg "set #0, 15" = some [{ word := 0x2000#16, dataIn := some (.value (.uint 15)) }] ∧
    assemble cfg "fill_mask 2, 6" = some [{ word := 0x0062#16, dataIn := none }] ∧
    assemble cfg "clone" = some [{ word := 0x6000#16, dataIn := none }]

/-! ### The mask and shift engine (40_mask_engine.md) -/

/-- `fill_mask(from, to)` is the byte whose bits `from .. to-1` are 1 and whose other bits are 0: the sum of `2^i` over them, `0`
where the bounds are equal and `0xFF` from 0 to 8 (40_mask_engine.md R59). -/
def Obligations.FillMaskSetsExactlyItsBits : Prop :=
  (∀ lo hi : Nat, lo ≤ hi → hi ≤ 8 →
    (∀ i, i < 8 → ((fillMask lo hi).getLsbD i = true ↔ lo ≤ i ∧ i < hi)) ∧
    (fillMask lo hi).toNat = ((List.range 8).map fun i => if lo ≤ i ∧ i < hi then 2 ^ i else 0).sum) ∧
  (∀ x : Nat, x ≤ 8 → fillMask x x = 0x00#8) ∧ fillMask 0 8 = 0xFF#8

/-- The five laws of `fill_mask` (40_mask_engine.md R60). -/
def Obligations.FillMaskLaws : Prop :=
  (∀ lo hi : Nat, lo ≤ hi → hi ≤ 8 → fillMask lo hi = shl8 0xFF#8 lo &&& shr8 0xFF#8 (8 - hi)) ∧
  (∀ lo hi : Nat, lo ≤ hi → hi ≤ 8 → (fillMask lo hi).toNat = 2 ^ hi - 2 ^ lo) ∧
  (∀ a b c : Nat, a ≤ b → b ≤ c → c ≤ 8 →
    fillMask a b ||| fillMask b c = fillMask a c ∧ fillMask a b &&& fillMask b c = 0#8) ∧
  (∀ o : Nat, o ≤ 8 → ~~~fillMask 0 o = fillMask o 8) ∧
  (∀ o n : Nat, o + n ≤ 8 → shr8 (fillMask o (o + n)) o = fillMask 0 n)

/-- FILL_MASK (40_mask_engine.md R61): its encoding, what it drives and leaves, and when it is refused. All else in the state
is unchanged. -/
def Obligations.FillMaskOperation : Prop :=
  (∀ lo hi : Nat, lo < 16 → hi < 16 → decode (BitVec.ofNat 16 (hi * 16 + lo)) = .ok (.fillMask lo hi)) ∧
  (∀ w : Word, w.toNat / 4096 = 0 → w.toNat / 256 % 16 ≠ 0 → decode w = .error (.reservedBits w)) ∧
  (∀ (lo hi : Nat) (s : State), lo ≤ hi → hi ≤ 8 →
    exec (.fillMask lo hi) s = .next { s with out := some (.byte (BitVec.ofNat 8 (2 ^ hi - 2 ^ lo))) }) ∧
  (∀ (lo hi : Nat) (s : State), 8 < lo ∨ 8 < hi ∨ hi < lo →
    exec (.fillMask lo hi) s = .next { s with refused := true, reason := some (.maskArg lo hi), out := none })

/-- Bit `j` of `extract_byte(a, len)` is `bufbit(a + j)` below `len` and 0 from there on, so the byte is below `2^len`
(40_mask_engine.md R63). -/
def Obligations.ExtractByteReadsItsBits : Prop :=
  ∀ (m : Memory) (a len : Nat), 1 ≤ len → len ≤ 8 →
    (∀ j, j < 8 → (extractByte m a len).getLsbD j = (decide (j < len) && m.bit (a + j))) ∧
    (extractByte m a len).toNat < 2 ^ len

/-- Bit `p` of `raw_byte(va, o, k)` is value bit `8*k + p - o`; for a span it is the value bit that belongs at that absolute
position (40_mask_engine.md R65). -/
def Obligations.RawBytePlacesValueBits : Prop :=
  (∀ (va : List Byte) (o k p : Nat), o < 8 → p < 8 →
    (rawByte va o k).getLsbD p = valueBit va (8 * (k : Int) + p - o)) ∧
  (∀ (va : List Byte) (sp : BitSpan) (k p : Nat), p < 8 →
    (rawByte va sp.offset k).getLsbD p =
      valueBit va (8 * ((sp.firstBit / 8 + k : Nat) : Int) + p - (sp.firstBit : Int)))

/-- `write_mask(k)` is `fill_mask(lo_k, hi_k)`: exactly the bits of the `k`-th touched byte that lie inside the span, at least
one (40_mask_engine.md R66). -/
def Obligations.WriteMaskIsTheSpanInThatByte : Prop :=
  ∀ (sp : BitSpan) (k : Nat), SpanOk sp → k < sp.touched →
    writeMask sp k = fillMask (if k = 0 then sp.firstBit % 8 else 0)
      (if sp.firstBit / 8 + k = sp.lastBit / 8 then sp.lastBit % 8 + 1 else 8) ∧
    (∀ p, p < 8 → ((writeMask sp k).getLsbD p = true ↔
      sp.firstBit ≤ 8 * (sp.firstBit / 8 + k) + p ∧ 8 * (sp.firstBit / 8 + k) + p ≤ sp.lastBit)) ∧
    writeMask sp k ≠ 0#8

/-- `merge_byte` takes the bits of `raw` under the mask and keeps the bits of `old` elsewhere (40_mask_engine.md R67). -/
def Obligations.MergeByteSelectsByMask : Prop :=
  ∀ old raw mask : Byte,
    mergeByte old raw mask = (old &&& ~~~mask) ||| (raw &&& mask) ∧
    ∀ p, p < 8 → (mergeByte old raw mask).getLsbD p = if mask.getLsbD p = true then raw.getLsbD p else old.getLsbD p

/-! ### Spans and the size of the buffer (10_state.md, 20_memory.md) -/

/-- The derived properties of both forms of span, their bounds, and that `Single(b)` and `Range(b, b+1)` share them
(10_state.md R17). -/
def Obligations.SpanDerivedProperties : Prop :=
  (∀ a e : Nat, a < e → (BitSpan.ofRange a e).firstBit = a ∧ (BitSpan.ofRange a e).lastBit = e - 1 ∧
    (BitSpan.ofRange a e).bitLength = e - a) ∧
  (∀ b : Nat, (BitSpan.ofSingle b).firstBit = b ∧ (BitSpan.ofSingle b).lastBit = b ∧ (BitSpan.ofSingle b).bitLength = 1) ∧
  (∀ sp : BitSpan, SpanOk sp → sp.bitLength = sp.lastBit - sp.firstBit + 1 ∧
    8 * (sp.byteLength - 1) < sp.bitLength ∧ sp.bitLength ≤ 8 * sp.byteLength ∧
    1 ≤ sp.bitLength ∧ sp.bitLength ≤ 255 ∧ 1 ≤ sp.byteLength ∧ sp.byteLength ≤ 32) ∧
  (∀ b : Nat, b ≤ 254 → (BitSpan.ofSingle b).firstBit = (BitSpan.ofRange b (b + 1)).firstBit ∧
    (BitSpan.ofSingle b).lastBit = (BitSpan.ofRange b (b + 1)).lastBit ∧
    (BitSpan.ofSingle b).bitLength = (BitSpan.ofRange b (b + 1)).bitLength ∧
    (BitSpan.ofSingle b).byteLength = (BitSpan.ofRange b (b + 1)).byteLength)

/-- The register size is that of the greatest last bit; it is 0 without fields and 1 to 32 with them, and every span of a
well-formed configuration lies inside the buffer (10_state.md R18; 90_conflicts.md C5). -/
def Obligations.RegisterSizeFollowsGreatestLastBit : Prop :=
  ∀ cfg : Config,
    (cfg.desc = [] → cfg.size = 0) ∧
    (cfg.desc ≠ [] → (∃ d ∈ cfg.desc, cfg.size = d.span.lastBit / 8 + 1) ∧
      ∀ d ∈ cfg.desc, d.span.lastBit / 8 + 1 ≤ cfg.size) ∧
    (cfg.WellFormed → cfg.desc ≠ [] → 1 ≤ cfg.size ∧ cfg.size ≤ 32) ∧
    (∀ d ∈ cfg.desc, d.span.lastBit < 8 * cfg.size)

/-- The segments of a span: one per touched byte, each non-empty, disjoint, their union the bits of the span
(20_memory.md R36). -/
def Obligations.SegmentsPartitionTheSpan : Prop :=
  ∀ sp : BitSpan, SpanOk sp →
    sp.segments.length = sp.lastBit / 8 - sp.firstBit / 8 + 1 ∧
    (∀ (k : Nat) (g : Segment), sp.segments[k]? = some g →
      g = { idx := sp.firstBit / 8 + k, lo := if k = 0 then sp.firstBit % 8 else 0,
            hi := if sp.firstBit / 8 + k = sp.lastBit / 8 then sp.lastBit % 8 + 1 else 8 } ∧
      g.lo < g.hi ∧ g.hi ≤ 8) ∧
    (∀ (k k' : Nat) (g g' : Segment), sp.segments[k]? = some g → sp.segments[k']? = some g' → k ≠ k' → g.idx ≠ g'.idx) ∧
    (∀ b, sp.firstBit ≤ b ∧ b ≤ sp.lastBit ↔ ∃ g ∈ sp.segments, g.idx = b / 8 ∧ g.lo ≤ b % 8 ∧ b % 8 < g.hi)

/-- The number of touched bytes is `ceil((o + bit_length) / 8)`, `N` or `N + 1`, the latter exactly when the span overruns `N`
bytes; `Range(6,10)` touches 2 bytes with `N = 1` (20_memory.md R37; 90_conflicts.md C4). -/
def Obligations.TouchedByteCount : Prop :=
  (∀ sp : BitSpan, SpanOk sp →
    sp.touched = (sp.firstBit % 8 + sp.bitLength + 7) / 8 ∧
    (sp.touched = sp.byteLength ∨ sp.touched = sp.byteLength + 1) ∧
    (sp.touched = sp.byteLength + 1 ↔ 8 * sp.byteLength < sp.firstBit % 8 + sp.bitLength)) ∧
  (BitSpan.ofRange 6 10).bitLength = 4 ∧ (BitSpan.ofRange 6 10).byteLength = 1 ∧ (BitSpan.ofRange 6 10).touched = 2

/-- For a well-formed configuration every touched byte, and every byte a read helper of GET reaches, is inside the buffer
(20_memory.md R38). -/
def Obligations.AccessesStayInsideTheBuffer : Prop :=
  ∀ (cfg : Config) (d : FieldDescriptor), cfg.WellFormed → d ∈ cfg.desc →
    (∀ g ∈ d.span.segments, g.idx ≤ d.span.lastByte ∧ g.idx < cfg.size) ∧
    (∀ i, i < d.span.byteLength →
      (d.span.firstBit + 8 * i) / 8 ≤ d.span.lastByte ∧
      (d.span.firstBit + 8 * i + min 8 (d.span.bitLength - 8 * i) - 1) / 8 ≤ d.span.lastByte) ∧
    d.span.lastByte < cfg.size

/-- A configuration is well-formed exactly when it passes WF1 to WF5, and nothing else is checked, overlap least of all; the
block is built from a well-formed configuration and refused with `CONFIG` for any other (10_state.md R19; the admitted
types are those of 41_value_codec.md R68). -/
def Obligations.WellFormedIsTheFiveChecks : Prop :=
  ∀ cfg : Config,
    (cfg.WellFormed ↔
      (∀ d ∈ cfg.desc,
        ((∃ b, d.span = BitSpan.ofSingle b ∧ b ≤ 255) ∨
          (∃ a e, d.span = BitSpan.ofRange a e ∧ a < e ∧ a ≤ 255 ∧ e ≤ 255)) ∧
        (d.valueType = .bool ∨ ∃ w, IsUnsigned d.valueType w ∧ 1 ≤ w / 8 ∧ w = 8 * (w / 8) ∧ w ∈ cfg.uintWidths)) ∧
      cfg.desc.length ≤ 4096) ∧
    (cfg.WellFormed → construct cfg = .next (State.powerOn cfg)) ∧
    (¬ cfg.WellFormed → ∃ c d, construct cfg = .refused (.config c d))

/-! ### The value codec (41_value_codec.md) -/

/-- `decode_N` of `UInt W`, `W = 8*M`: the little-endian sum mod `2^W`; the reduction removes nothing when `N ≤ M` and drops
the bytes from `M` on otherwise (41_value_codec.md R70). -/
def Obligations.UnsignedDecodeIsLittleEndianModWidth : Prop :=
  ∀ (n : Nat) (va : List Byte),
    decodeValue (.uint (8 * n)) va =
      some (.uint (((List.range va.length).map fun i => (va.getD i 0#8).toNat * 2 ^ (8 * i)).sum % 2 ^ (8 * n))) ∧
    (va.length ≤ n → ((List.range va.length).map fun i => (va.getD i 0#8).toNat * 2 ^ (8 * i)).sum < 2 ^ (8 * n)) ∧
    (n < va.length → decodeValue (.uint (8 * n)) va = decodeValue (.uint (8 * n)) (va.take n))

/-- `encode_N` of `UInt W`: `N` bytes, least significant first, zero from byte `M` on, the high bytes dropped when `N < M`
(41_value_codec.md R71). -/
def Obligations.UnsignedEncodeIsLittleEndian : Prop :=
  ∀ n v : Nat, (encodeValue n (.uint v)).length = n ∧
    (∀ i, i < n → ((encodeValue n (.uint v)).getD i 0#8).toNat = v / 2 ^ (8 * i) % 256) ∧
    (∀ mBytes i, v < 2 ^ (8 * mBytes) → mBytes ≤ i → (encodeValue n (.uint v)).getD i 0#8 = 0#8)

/-- Decoding the encoding of a `W`-bit value gives it mod `2^min(W, 8*N)`, so the value itself when it fits the field's bytes
(41_value_codec.md R72). -/
def Obligations.UnsignedCodecRoundTrip : Prop :=
  ∀ w n v : Nat, v < 2 ^ w →
    decodeValue (.uint w) (encodeValue n (.uint v)) = some (.uint (v % 2 ^ min w (8 * n))) ∧
    (w ≤ 8 * n → decodeValue (.uint w) (encodeValue n (.uint v)) = some (.uint v))

/-- `decode_N` of `Bool` reads only bit 0 of byte 0, so a GET of a bool field of width 4 that holds `0b0010` gives `false`; a
bool survives the round trip (41_value_codec.md R74). -/
def Obligations.BoolDecodeReadsBitZeroOnly : Prop :=
  (∀ (b : Byte) (bs : List Byte), decodeValue .bool (b :: bs) = some (.bool (b.getLsbD 0))) ∧
  (∀ (n : Nat) (b : Bool), 1 ≤ n → decodeValue .bool (encodeValue n (.bool b)) = some (.bool b)) ∧
  (∀ (s : State) (f : Nat) (d : FieldDescriptor), s.cfg.WellFormed → s.cfg.desc[f]? = some d → d.valueType = .bool →
    d.span.bitLength = 4 → fieldInteger s.buf d.span = 0b0010 →
    exec (.get f) s = .next { s with out := some (.value (.bool false)) })

/-- A bool encodes to 0 or 1 in byte 0 with every other byte 0, so SET leaves every bit of a bool field above bit 0 clear
(41_value_codec.md R73). -/
def Obligations.BoolEncodesInByteZero : Prop :=
  (∀ n : Nat, encodeValue (n + 1) (.bool false) = 0x00#8 :: List.replicate n 0x00#8 ∧
    encodeValue (n + 1) (.bool true) = 0x01#8 :: List.replicate n 0x00#8) ∧
  (∀ (s : State) (f : Nat) (d : FieldDescriptor) (b : Bool),
    s.cfg.WellFormed → s.cfg.desc[f]? = some d → d.valueType = .bool → s.dataIn = some (.value (.bool b)) →
    ∃ m, exec (.set f) s = .next { s with buf := m, out := none } ∧ m.bit d.span.firstBit = b ∧
      ∀ j, d.span.firstBit < j → j ≤ d.span.lastBit → m.bit j = false)

/-- `LEWrapped W` has exactly the codec and the values of `UInt W` (41_value_codec.md R75; 90_conflicts.md C7). -/
def Obligations.WrappedLittleIsUnsigned : Prop :=
  ∀ (w : Nat) (va : List Byte) (v : Value),
    decodeValue (.wrapped .little w) va = decodeValue (.uint w) va ∧
    hasValue (.wrapped .little w) v = hasValue (.uint w) v

/-! ### GET (42_field_access.md) -/

/-- Bit `j` of the value array is `bufbit(first_bit + j)` below `bit_length` and 0 from there on; as an integer the value array
is the integer of the span (42_field_access.md R78). -/
def Obligations.ValueArrayHoldsTheFieldBits : Prop :=
  ∀ (m : Memory) (sp : BitSpan), SpanOk sp →
    (valueArray m sp).length = sp.byteLength ∧
    (∀ j, j < 8 * sp.byteLength →
      ((valueArray m sp).getD (j / 8) 0#8).getLsbD (j % 8) = (decide (j < sp.bitLength) && m.bit (sp.firstBit + j))) ∧
    ((List.range sp.byteLength).map fun i => ((valueArray m sp).getD i 0#8).toNat * 2 ^ (8 * i)).sum = fieldInteger m sp

/-- GET of an unsigned field completes for every well-formed configuration: it drives the integer of the span mod `2^W` and
changes nothing else (42_field_access.md R79; 41_value_codec.md R70, R75). -/
def Obligations.GetReturnsUnsignedField : Prop :=
  ∀ (s : State) (f : Nat) (d : FieldDescriptor) (w : Nat),
    s.cfg.WellFormed → s.cfg.desc[f]? = some d → IsUnsigned d.valueType w →
    exec (.get f) s = .next { s with out := some (.value (.uint (fieldInteger s.buf d.span % 2 ^ w))) }

/-- GET of a bool field completes for every well-formed configuration: it drives field bit 0 and changes nothing else
(42_field_access.md R79 (h); 41_value_codec.md R74). -/
def Obligations.GetReturnsBoolField : Prop :=
  ∀ (s : State) (f : Nat) (d : FieldDescriptor),
    s.cfg.WellFormed → s.cfg.desc[f]? = some d → d.valueType = .bool →
    exec (.get f) s = .next { s with out := some (.value (.bool (s.buf.bit d.span.firstBit))) }

/-- GET leaves every state but data-out unchanged, and two GETs of one field over the same buffer drive the same value
(42_field_access.md R80). -/
def Obligations.GetIsIdempotent : Prop :=
  ∀ (s t : State) (f : Nat), s.cfg.WellFormed → f < s.cfg.fieldCount → t.cfg = s.cfg → t.buf = s.buf →
    ∃ v, exec (.get f) s = .next { s with out := some (.value v) } ∧
      exec (.get f) t = .next { t with out := some (.value v) }

/-- GET and SET of an index `f ≥ F` are refused with `FIELD_INDEX`, whatever the data-in (30_encoding.md R54 (d);
60_exceptions.md R96, R98). -/
def Obligations.MissingFieldIsRefused : Prop :=
  ∀ (s : State) (f : Nat), s.cfg.fieldCount ≤ f →
    exec (.get f) s = .next { s with refused := true, reason := some (.fieldIndex f), out := none } ∧
    exec (.set f) s = .next { s with refused := true, reason := some (.fieldIndex f), out := none }

/-! ### SET (42_field_access.md) -/

/-- SET of a value of the field's type completes for every well-formed configuration. Each bit of the span takes its value
bit and every other bit is unchanged; every byte outside `first_byte .. last_byte` is unchanged, and so is all else in the
state, but that nothing stands on data-out (42_field_access.md R83). -/
def Obligations.SetWritesExactlyTheSpan : Prop :=
  ∀ (s : State) (f : Nat) (d : FieldDescriptor) (v : Value),
    s.cfg.WellFormed → s.cfg.desc[f]? = some d → s.dataIn = some (.value v) → hasValue d.valueType v = true →
    ∃ m, exec (.set f) s = .next { s with buf := m, out := none } ∧
      (∀ b, d.span.firstBit ≤ b → b ≤ d.span.lastBit →
        m.bit b = valueBit (encodeValue d.span.byteLength v) ((b - d.span.firstBit : Nat) : Int)) ∧
      (∀ b, b < d.span.firstBit ∨ d.span.lastBit < b → m.bit b = s.buf.bit b) ∧
      (∀ i, i < d.span.firstByte ∨ d.span.lastByte < i → m.read i = s.buf.read i)

/-- SET whose data-in is not a value of the field's type is refused with `VALUE_TYPE`; the values of the types, among them
that an unsigned value `≥ 2^W`, a bool for an integer field and an integer for a bool field are none (30_encoding.md
R54 (e); 42_field_access.md R82). That absent data-in and a byte list count as such, with the data-in as given recorded, is
the model's inference (DEDUCED, log 5). -/
def Obligations.SetRefusesDataOfTheWrongType : Prop :=
  (∀ (s : State) (f : Nat) (d : FieldDescriptor),
    s.cfg.WellFormed → s.cfg.desc[f]? = some d → (∀ v, s.dataIn = some (.value v) → hasValue d.valueType v = false) →
    exec (.set f) s = .next { s with refused := true, reason := some (.valueType f s.dataIn), out := none }) ∧
  (∀ (ty : ValueType) (w v : Nat), IsUnsigned ty w → (hasValue ty (.uint v) = true ↔ v < 2 ^ w)) ∧
  (∀ (ty : ValueType) (w : Nat) (b : Bool), IsUnsigned ty w → hasValue ty (.bool b) = false) ∧
  (∀ v : Nat, hasValue .bool (.uint v) = false) ∧ (∀ b : Bool, hasValue .bool (.bool b) = true)

/-- SET of an unsigned field keeps the low `bit_length` bits of the value, and clears the field's bits from `W` on
(42_field_access.md R85). -/
def Obligations.SetTruncatesSilently : Prop :=
  ∀ (s : State) (f : Nat) (d : FieldDescriptor) (w v : Nat),
    s.cfg.WellFormed → s.cfg.desc[f]? = some d → IsUnsigned d.valueType w → v < 2 ^ w →
    s.dataIn = some (.value (.uint v)) →
    ∃ m, exec (.set f) s = .next { s with buf := m, out := none } ∧
      ∀ j, j < d.span.bitLength → m.bit (d.span.firstBit + j) = (decide (j < w) && v.testBit j)

/-- A GET right after a SET of `v` returns `v mod 2^min(W, bit_length)`, which is `v & ((1 << bit_length) - 1)` when
`W ≥ bit_length`; a bool comes back as it was set (42_field_access.md R86). -/
def Obligations.GetAfterSetReturnsTheValue : Prop :=
  (∀ (s : State) (f : Nat) (d : FieldDescriptor) (w v : Nat),
    s.cfg.WellFormed → s.cfg.desc[f]? = some d → IsUnsigned d.valueType w → v < 2 ^ w →
    s.dataIn = some (.value (.uint v)) →
    ∃ t, exec (.set f) s = .next t ∧
      exec (.get f) t = .next { t with out := some (.value (.uint (v % 2 ^ min w d.span.bitLength))) } ∧
      (d.span.bitLength ≤ w → v % 2 ^ min w d.span.bitLength = v &&& (1 <<< d.span.bitLength - 1))) ∧
  (∀ (s : State) (f : Nat) (d : FieldDescriptor) (b : Bool),
    s.cfg.WellFormed → s.cfg.desc[f]? = some d → d.valueType = .bool → s.dataIn = some (.value (.bool b)) →
    ∃ t, exec (.set f) s = .next t ∧ exec (.get f) t = .next { t with out := some (.value (.bool b)) })

/-- A second SET of the same value into the same field leaves the whole state as the first left it, the buffer among it
(42_field_access.md R87; the premise is the canonical form of the buffer, which every step keeps). -/
def Obligations.SetIsIdempotent : Prop :=
  ∀ (s : State) (f : Nat) (d : FieldDescriptor) (v : Value),
    s.cfg.WellFormed → s.buf.wf → s.cfg.desc[f]? = some d → s.dataIn = some (.value v) →
    hasValue d.valueType v = true →
    ∃ t, exec (.set f) s = .next t ∧ exec (.set f) t = .next t

/-- A SET changes no buffer bit outside its span, and a GET of a field with a disjoint span drives the same value before and
after it (42_field_access.md R84). -/
def Obligations.DisjointSetDoesNotDisturbGet : Prop :=
  ∀ (s : State) (f g : Nat) (a b : FieldDescriptor) (v : Value),
    s.cfg.WellFormed → s.cfg.desc[f]? = some a → s.cfg.desc[g]? = some b → SpansDisjoint a.span b.span →
    s.dataIn = some (.value v) → hasValue a.valueType v = true →
    ∃ t x, exec (.set f) s = .next t ∧
      (∀ j, j < a.span.firstBit ∨ a.span.lastBit < j → t.buf.bit j = s.buf.bit j) ∧
      exec (.get g) s = .next { s with out := some (.value x) } ∧
      exec (.get g) t = .next { t with out := some (.value x) }

/-- Overlapping fields share one bit array: after a SET of an unsigned field, an unsigned field whose span lies inside its
span reads the value's bits from that place on (20_memory.md R35; 42_field_access.md R88). -/
def Obligations.InnerFieldReadsTheOuterValue : Prop :=
  ∀ (s : State) (f g : Nat) (a b : FieldDescriptor) (wa wb v : Nat),
    s.cfg.WellFormed → s.cfg.desc[f]? = some a → s.cfg.desc[g]? = some b →
    IsUnsigned a.valueType wa → IsUnsigned b.valueType wb → v < 2 ^ wa → s.dataIn = some (.value (.uint v)) →
    a.span.firstBit ≤ b.span.firstBit → b.span.lastBit ≤ a.span.lastBit →
    ∃ t, exec (.set f) s = .next t ∧
      exec (.get g) t = .next { t with out := some (.value (.uint
        (v / 2 ^ (b.span.firstBit - a.span.firstBit) % 2 ^ min wb b.span.bitLength))) }

/-! ### DEFAULT, FROM, DATA and CLONE (43_register_ops.md) -/

/-- DEFAULT (43_register_ops.md R90): its word, and that it completes in every state with each of the `S` bytes zero; no other
address and nothing else in the state changes, but that nothing stands on data-out. -/
def Obligations.DefaultZeroesTheBuffer : Prop :=
  decode 0x3000#16 = .ok .default ∧
  (∀ w : Word, w.toNat / 4096 = 3 → w.toNat % 4096 ≠ 0 → decode w = .error (.reservedBits w)) ∧
  (∀ s : State, ∃ m, exec .default s = .next { s with buf := m, out := none } ∧
    (∀ i, i < s.size → m.read i = 0x00#8) ∧ (∀ i, s.size ≤ i → m.read i = s.buf.read i)) ∧
  (∀ (s t : State) (f : Nat) (d : FieldDescriptor), s.cfg.WellFormed → s.cfg.desc[f]? = some d →
    exec .default s = .next t →
    exec (.get f) t = .next { t with out := some (.value (zeroValue d.valueType)) })

/-- From a state that meets the invariant, DEFAULT leaves the power-on buffer (43_register_ops.md R90; 10_state.md R29). -/
def Obligations.DefaultRestoresThePowerOnBuffer : Prop :=
  ∀ s : State, s.Inv → exec .default s = .next { s with buf := (State.powerOn s.cfg).buf, out := none }

/-- FROM (43_register_ops.md R91): its word, that it completes on exactly `S` bytes with each byte of the buffer replaced, and
that another length is refused. No other address and nothing else in the state changes, but that nothing stands on
data-out. -/
def Obligations.FromReplacesTheBuffer : Prop :=
  decode 0x4000#16 = .ok .fromBuf ∧
  (∀ w : Word, w.toNat / 4096 = 4 → w.toNat % 4096 ≠ 0 → decode w = .error (.reservedBits w)) ∧
  (∀ (s : State) (bs : List Byte), s.dataIn = some (.bytes bs) → bs.length = s.size →
    ∃ m, exec .fromBuf s = .next { s with buf := m, out := none } ∧
      (∀ i, i < s.size → bs[i]? = some (m.read i)) ∧ (∀ i, s.size ≤ i → m.read i = s.buf.read i)) ∧
  (∀ (s : State) (bs : List Byte), s.dataIn = some (.bytes bs) → bs.length ≠ s.size →
    exec .fromBuf s =
      .next { s with refused := true, reason := some (.fromLength (some bs.length)), out := none })

/-- FROM whose data-in is no list of bytes is refused with `FROM_LENGTH` (30_encoding.md R51, R54 (f)); that no length is
recorded is the model's choice (log 5). -/
def Obligations.FromRefusesDataThatIsNoBytes : Prop :=
  ∀ s : State, (∀ bs, s.dataIn ≠ some (.bytes bs)) →
    exec .fromBuf s = .next { s with refused := true, reason := some (.fromLength none), out := none }

/-- DATA (43_register_ops.md R92): its word, and that it completes in every state, drives the `S` bytes, `buf[0]` first, and
changes nothing else. -/
def Obligations.DataReturnsTheBuffer : Prop :=
  decode 0x5000#16 = .ok .data ∧
  (∀ w : Word, w.toNat / 4096 = 5 → w.toNat % 4096 ≠ 0 → decode w = .error (.reservedBits w)) ∧
  (∀ s : State, ∃ bs, exec .data s = .next { s with out := some (.bytes bs) } ∧ bs.length = s.size ∧
    ∀ i, i < s.size → bs[i]? = some (s.buf.read i))

/-- CLONE (43_register_ops.md R93): its word, and that it completes in every state, drives the `S` bytes and changes nothing
else; a second instance of the same configuration built from the copy has the same buffer and a clear mark. -/
def Obligations.CloneCopiesTheBuffer : Prop :=
  decode 0x6000#16 = .ok .clone ∧
  (∀ w : Word, w.toNat / 4096 = 6 → w.toNat % 4096 ≠ 0 → decode w = .error (.reservedBits w)) ∧
  (∀ s : State, ∃ bs, exec .clone s = .next { s with out := some (.bytes bs) } ∧ bs.length = s.size ∧
    ∀ i, i < s.size → bs[i]? = some (s.buf.read i)) ∧
  (∀ s : State, s.Inv → ∃ bs t, exec .clone s = .next { s with out := some (.bytes bs) } ∧
    constructFrom s.cfg bs = .next t ∧ t.cfg = s.cfg ∧ t.buf = s.buf ∧ t.refused = false)

/-! ### Reset and construction (10_state.md, 70_reset_and_hazards.md) -/

/-- Right after power-on of a well-formed configuration every byte is zero and the mark is false; after DEFAULT every byte is
zero and the mark is as it was (10_state.md R29). -/
def Obligations.ResetAndDefaultValues : Prop :=
  (∀ cfg : Config, cfg.WellFormed →
    ∃ s, construct cfg = .next s ∧ s.cfg = cfg ∧ (∀ i, s.buf.read i = 0x00#8) ∧ s.refused = false) ∧
  (∀ s t : State, exec .default s = .next t →
    (∀ i, i < s.size → t.buf.read i = 0x00#8) ∧ t.refused = s.refused)

/-- An instance is created zero-filled or from exactly `S` bytes, which the first operation then sees (70_reset_and_hazards.md
R111). -/
def Obligations.ConstructionGivesZerosOrTheBytes : Prop :=
  ∀ cfg : Config, cfg.WellFormed →
    (∃ s, construct cfg = .next s ∧ ∀ i, s.buf.read i = 0x00#8) ∧
    (∀ bs : List Byte, bs.length = cfg.size →
      ∃ s, constructFrom cfg bs = .next s ∧ s.cfg = cfg ∧ s.refused = false ∧
        ∀ i, i < cfg.size → bs[i]? = some (s.buf.read i))

/-- A configuration that fails a check is refused at construction, and no step of a block that holds it runs an operation
(60_exceptions.md R97, R98; 70_reset_and_hazards.md R112). -/
def Obligations.IllFormedConfigurationHasNoRun : Prop :=
  ∀ (cfg : Config) (c : ConfigCheck) (d : Option Nat), cfg.check = some (c, d) →
    construct cfg = .refused (.config c d) ∧ ∀ s : State, s.cfg = cfg → step s = .refused (.config c d)

/-! ### The step (00_scope.md R6, 60_exceptions.md, 20_memory.md) -/

/-- A step of a ready block takes the host's next request and runs the operation its word decodes to, the request's data-in on
the port (00_scope.md R6; 30_encoding.md R48). -/
def Obligations.StepRunsTheDecodedOperation : Prop :=
  ∀ (s : State) (r : Request) (rest : List Request) (i : Instr),
    s.Ready → s.requests = r :: rest → decode r.word = .ok i →
    step s = exec i { s with requests := rest, dataIn := r.dataIn }

/-- A step of a ready block on a reserved word is a refused operation: the mark is set, the reason recorded, nothing driven,
no byte written (60_exceptions.md R96, R97, R100). -/
def Obligations.StepRefusesReservedWords : Prop :=
  ∀ (s : State) (r : Request) (rest : List Request) (e : Reason),
    s.Ready → s.requests = r :: rest → decode r.word = .error e →
    step s = .next { s with requests := rest, dataIn := r.dataIn, refused := true, reason := some e, out := none }

/-- A block to which nothing is issued holds its state (60_exceptions.md R109). -/
def Obligations.IdleBlockHoldsItsState : Prop :=
  ∀ s : State, s.Ready → s.requests = [] → step s = .next s

/-- A block whose mark is set takes no further operation (60_exceptions.md R97). That a step of a halted block is the refusal
`halted`, also where no request is pending, is the model's choice (log 3). -/
def Obligations.HaltedBlockTakesNoOperation : Prop :=
  ∀ s : State, s.cfg.WellFormed → s.refused = true → step s = .refused .halted

/-- A refusal is precise, whatever the operation: when a step sets the mark, the state is the one before with the mark set, one
reason of codes 1 to 6 recorded, nothing driven and the request taken, and the block is halted (60_exceptions.md R96, R97,
R100). The request queue and the two ports are the model's choice (log 1), and so are the reason field and that the next step
is the refusal `halted`, also where no request is left (log 3). -/
def Obligations.RefusedOperationIsPrecise : Prop :=
  ∀ s t : State, step s = .next t → s.refused = false → t.refused = true →
    ∃ (r : Request) (rest : List Request) (e : Reason), s.requests = r :: rest ∧ 1 ≤ e.code ∧ e.code ≤ 6 ∧
      t = { s with requests := rest, dataIn := r.dataIn, refused := true, reason := some e, out := none } ∧
      step t = .refused .halted

/-- No operation clears the mark (10_state.md R21; 60_exceptions.md R101). -/
def Obligations.NoOperationClearsTheMark : Prop :=
  ∀ (i : Instr) (s t : State), exec i s = .next t → s.refused = true → t.refused = true

/-- No step writes the configuration, and each step takes the first of the host's requests, in issue order (10_state.md R15;
20_memory.md R43, R46). The rules give the order; that the requests stand in State as a queue is the model's choice
(log 1). -/
def Obligations.ConfigurationIsFixedAndRequestsInOrder : Prop :=
  ∀ s t : State, step s = .next t → t.cfg = s.cfg ∧ t.requests = s.requests.tail

/-- The buffer changes only through SET, DEFAULT and FROM (43_register_ops.md R94). -/
def Obligations.OnlySetDefaultAndFromWriteTheBuffer : Prop :=
  (∀ (i : Instr) (s t : State), exec i s = .next t → t.buf ≠ s.buf →
    (∃ f, i = .set f) ∨ i = .default ∨ i = .fromBuf) ∧
  (∀ s t : State, step s = .next t → t.buf ≠ s.buf →
    ∃ (r : Request) (rest : List Request) (i : Instr), s.requests = r :: rest ∧ decode r.word = .ok i ∧
      ((∃ f, i = .set f) ∨ i = .default ∨ i = .fromBuf))

/-- No step faults, from any state: no operation of a well-formed block addresses a byte outside the buffer, and none raises an
exception (20_memory.md R38; 60_exceptions.md R95). -/
def Obligations.NoStepFaults : Prop :=
  ∀ s : State, NoFault (step s)

/-- Every step of a ready block answers a next state: every operation on a well-formed configuration completes or is precisely
refused (60_exceptions.md R95; 70_reset_and_hazards.md R117). -/
def Obligations.EveryStepOfAReadyBlockCompletes : Prop :=
  ∀ s : State, s.Ready → Completes (step s)

/-- Every step keeps the invariant: the well-formed configuration, the canonical buffer inside its `S` bytes, the mark set
exactly with a recorded reason and nothing driven (10_state.md R19, R20; 60_exceptions.md R96, R97). -/
def Obligations.StepKeepsTheInvariant : Prop :=
  ∀ s t : State, s.Inv → step s = .next t → t.Inv

/-- The power-on state of every well-formed configuration meets the invariant, and so does the reset state. The configuration of
the reset state (log 2), the power-on value none of the reason field, on which the invariant's clause about the mark rests
(log 3), and that of data-out (log 1) are the model's choice. -/
def Obligations.PowerOnMeetsTheInvariant : Prop :=
  (∀ (cfg : Config) (s : State), construct cfg = .next s → s.Inv) ∧ State.reset.Inv
end

