-- ==== Sys2Proof/Laws/Memory.lean ====
section
/-! SUPPORT. What reading gives after each operation on the buffer, that each operation keeps the canonical form, and that
canonical memories are equal when they read alike. -/

namespace Sys2Proof.Machine

/-! ### Reading -/

@[simp] theorem Memory.read_nil (i : Nat) : Memory.read [] i = 0#8 := rfl

@[simp] theorem Memory.bit_nil (b : Nat) : Memory.bit [] b = false := by simp [Memory.bit]

theorem Memory.read_erase (m : Memory) (i j : Nat) : (m.erase i).read j = if j = i then 0#8 else m.read j := by
  induction m with
  | nil => simp [Memory.erase]
  | cons c m ih =>
    obtain ⟨a, v⟩ := c
    by_cases hai : a = i
    · subst hai
      by_cases hj : j = a
      · subst hj
        simp [Memory.erase, ih]
      · simp [Memory.erase, Memory.read, ih, hj, Ne.symm hj]
    · by_cases haj : a = j
      · subst haj
        simp [Memory.erase, Memory.read, hai]
      · simp [Memory.erase, Memory.read, hai, haj, ih]

theorem Memory.read_insert_same (m : Memory) (i : Nat) (b : Byte) (h : ∀ c ∈ m, c.1 ≠ i) :
    (m.insert i b).read i = b := by
  induction m with
  | nil => simp [Memory.insert, Memory.read]
  | cons c m ih =>
    obtain ⟨a, v⟩ := c
    have ha : a ≠ i := h (a, v) (by simp)
    have hm : ∀ c ∈ m, c.1 ≠ i := fun c hc => h c (by simp [hc])
    by_cases hlt : i < a
    · simp [Memory.insert, hlt, Memory.read]
    · simp [Memory.insert, hlt, Memory.read, ha, ih hm]

theorem Memory.read_insert_other (m : Memory) (i j : Nat) (b : Byte) (h : j ≠ i) :
    (m.insert i b).read j = m.read j := by
  induction m with
  | nil => simp [Memory.insert, Memory.read, Ne.symm h]
  | cons c m ih =>
    obtain ⟨a, v⟩ := c
    by_cases hlt : i < a
    · simp [Memory.insert, hlt, Memory.read, Ne.symm h]
    · simp [Memory.insert, hlt, Memory.read, ih]

theorem Memory.not_mem_erase (m : Memory) (i : Nat) : ∀ c ∈ m.erase i, c.1 ≠ i := by
  induction m with
  | nil => simp [Memory.erase]
  | cons c m ih =>
    obtain ⟨a, v⟩ := c
    by_cases hai : a = i
    · simpa [Memory.erase, hai] using ih
    · simp only [Memory.erase, hai, if_false, List.mem_cons, forall_eq_or_imp]
      exact ⟨hai, ih⟩

/-- Reading after one write: the byte written there, every other byte as before. -/
theorem Memory.read_write (m : Memory) (i j : Nat) (b : Byte) :
    (m.write i b).read j = if j = i then b else m.read j := by
  unfold Memory.write
  by_cases hb : b = 0#8
  · simp [hb, Memory.read_erase]
  · by_cases hj : j = i
    · subst hj
      simp [hb, Memory.read_insert_same _ _ _ (m.not_mem_erase j)]
    · simp [hb, hj, Memory.read_insert_other _ _ _ _ hj, Memory.read_erase]

/-- Reading after writing a list of bytes from address `i` on. -/
theorem Memory.read_writeBytes (m : Memory) (i : Nat) (bs : List Byte) (j : Nat) :
    (m.writeBytes i bs).read j = if i ≤ j ∧ j < i + bs.length then bs.getD (j - i) 0#8 else m.read j := by
  induction bs generalizing m i with
  | nil =>
    have : ¬ (i ≤ j ∧ j < i + ([] : List Byte).length) := by simp
    rw [if_neg this]; rfl
  | cons b bs ih =>
    simp only [Memory.writeBytes, ih, List.length_cons, Memory.read_write]
    by_cases hj : j = i
    · subst hj
      simp
    · by_cases h : i + 1 ≤ j ∧ j < i + 1 + bs.length
      · have hs : j - i = (j - (i + 1)) + 1 := by omega
        rw [if_pos h, if_pos (by omega), hs, List.getD_cons_succ]
      · rw [if_neg h, if_neg hj, if_neg (by omega)]

theorem Memory.length_readBytes (m : Memory) (i n : Nat) : (m.readBytes i n).length = n := by
  simp [Memory.readBytes]

theorem Memory.getElem?_readBytes (m : Memory) (i n j : Nat) (h : j < n) :
    (m.readBytes i n)[j]? = some (m.read (i + j)) := by
  simp [Memory.readBytes, h]

/-- Bits of the buffer read alike where bytes do. -/
theorem Memory.bit_congr {m m' : Memory} {b : Nat} (h : m.read (b / 8) = m'.read (b / 8)) : m.bit b = m'.bit b := by
  simp [Memory.bit, h]

/-! ### The canonical form -/

theorem Memory.mem_of_mem_erase {m : Memory} {i : Nat} {c : Host.Cell} (h : c ∈ m.erase i) : c ∈ m := by
  induction m with
  | nil => simp [Memory.erase] at h
  | cons d m ih =>
    obtain ⟨a, v⟩ := d
    by_cases hai : a = i
    · rw [Memory.erase, if_pos hai] at h
      exact List.mem_cons_of_mem _ (ih h)
    · rw [Memory.erase, if_neg hai, List.mem_cons] at h
      exact h.elim (fun e => by simp [e]) fun e => List.mem_cons_of_mem _ (ih e)

theorem Memory.mem_insert {m : Memory} {i : Nat} {b : Byte} {c : Host.Cell} (h : c ∈ m.insert i b) :
    c = (i, b) ∨ c ∈ m := by
  induction m with
  | nil => simpa [Memory.insert] using h
  | cons d m ih =>
    obtain ⟨a, v⟩ := d
    by_cases hlt : i < a
    · rw [Memory.insert, if_pos hlt, List.mem_cons] at h
      exact h
    · rw [Memory.insert, if_neg hlt, List.mem_cons] at h
      rcases h with e | e
      · exact .inr (by simp [e])
      · exact (ih e).imp id (List.mem_cons_of_mem _)

theorem Memory.wf_erase {m : Memory} (i : Nat) (h : m.wf) : (m.erase i).wf := by
  refine ⟨?_, fun c hc => h.2 c (Memory.mem_of_mem_erase hc)⟩
  have h1 := h.1
  clear h
  induction m with
  | nil => simp [Memory.erase]
  | cons d m ih =>
    obtain ⟨a, v⟩ := d
    rw [List.pairwise_cons] at h1
    by_cases hai : a = i
    · rw [Memory.erase, if_pos hai]
      exact ih h1.2
    · rw [Memory.erase, if_neg hai, List.pairwise_cons]
      exact ⟨fun c hc => h1.1 c (Memory.mem_of_mem_erase hc), ih h1.2⟩

theorem Memory.wf_insert {m : Memory} {i : Nat} {b : Byte} (hb : b ≠ 0#8) (hi : ∀ c ∈ m, c.1 ≠ i) (h : m.wf) :
    (m.insert i b).wf := by
  refine ⟨?_, fun c hc => (Memory.mem_insert hc).elim (fun e => by simpa [e] using hb) (h.2 c)⟩
  have h1 := h.1
  clear h
  induction m with
  | nil => simp [Memory.insert]
  | cons d m ih =>
    obtain ⟨a, v⟩ := d
    rw [List.pairwise_cons] at h1
    have ha : a ≠ i := hi (a, v) (by simp)
    by_cases hlt : i < a
    · rw [Memory.insert, if_pos hlt, List.pairwise_cons, List.pairwise_cons]
      refine ⟨fun c hc => ?_, h1.1, h1.2⟩
      rcases List.mem_cons.1 hc with e | e
      · rw [e]; exact hlt
      · exact Nat.lt_trans hlt (h1.1 c e)
    · rw [Memory.insert, if_neg hlt, List.pairwise_cons]
      refine ⟨fun c hc => ?_, ih (fun c hc => hi c (List.mem_cons_of_mem _ hc)) h1.2⟩
      rcases Memory.mem_insert hc with e | e
      · subst e; show a < i; omega
      · exact h1.1 c e

/-- A write keeps the canonical form. -/
theorem Memory.wf_write {m : Memory} (i : Nat) (b : Byte) (h : m.wf) : (m.write i b).wf := by
  unfold Memory.write
  split
  · exact Memory.wf_erase i h
  · exact Memory.wf_insert ‹_› (m.not_mem_erase i) (Memory.wf_erase i h)

/-- Writing a list of bytes keeps the canonical form. -/
theorem Memory.wf_writeBytes {m : Memory} (i : Nat) (bs : List Byte) (h : m.wf) : (m.writeBytes i bs).wf := by
  induction bs generalizing m i with
  | nil => exact h
  | cons b bs ih => exact ih (i + 1) (Memory.wf_write i b h)

theorem Memory.below_write {m : Memory} {i n : Nat} (b : Byte) (h : m.below n) (hi : i < n) : (m.write i b).below n := by
  intro c hc
  unfold Memory.write at hc
  split at hc
  · exact h c (Memory.mem_of_mem_erase hc)
  · rcases Memory.mem_insert hc with e | e
    · subst e; exact hi
    · exact h c (Memory.mem_of_mem_erase e)

/-- Writing bytes below `n` lists nothing at `n` or above. -/
theorem Memory.below_writeBytes {m : Memory} {i n : Nat} (bs : List Byte) (h : m.below n) (hi : i + bs.length ≤ n) :
    (m.writeBytes i bs).below n := by
  induction bs generalizing m i with
  | nil => exact h
  | cons b bs ih =>
    rw [List.length_cons] at hi
    exact ih (Memory.below_write b h (by omega)) (by omega)

theorem Memory.read_eq_zero_of_not_listed {m : Memory} {i : Nat} (h : ∀ c ∈ m, c.1 ≠ i) : m.read i = 0#8 := by
  induction m with
  | nil => rfl
  | cons c m ih =>
    obtain ⟨a, v⟩ := c
    have ha : a ≠ i := h (a, v) (by simp)
    simp [Memory.read, ha, ih fun c hc => h c (List.mem_cons_of_mem _ hc)]

theorem Memory.read_eq_zero_of_below {m : Memory} {i n : Nat} (h : m.below n) (hi : n ≤ i) : m.read i = 0#8 :=
  Memory.read_eq_zero_of_not_listed fun c hc => by have := h c hc; omega

/-- Two canonical memories that read alike are the same list. -/
theorem Memory.ext_of_wf {m m' : Memory} (h : m.wf) (h' : m'.wf) (hr : ∀ i, m.read i = m'.read i) : m = m' := by
  induction m generalizing m' with
  | nil =>
    cases m' with
    | nil => rfl
    | cons d m' =>
      obtain ⟨a, v⟩ := d
      have := hr a
      simp [Memory.read] at this
      exact absurd this.symm (h'.2 (a, v) (by simp))
  | cons c m ih =>
    obtain ⟨a, v⟩ := c
    have hv : v ≠ 0#8 := h.2 (a, v) (by simp)
    cases m' with
    | nil =>
      have := hr a
      simp [Memory.read] at this
      exact absurd this hv
    | cons d m' =>
      obtain ⟨a', v'⟩ := d
      have hv' : v' ≠ 0#8 := h'.2 (a', v') (by simp)
      have p := List.pairwise_cons.1 h.1
      have p' := List.pairwise_cons.1 h'.1
      have hz : ∀ i, i ≤ a → Memory.read m i = 0#8 := fun i hi =>
        Memory.read_eq_zero_of_not_listed fun c hc => by have : a < c.1 := p.1 c hc; omega
      have hz' : ∀ i, i ≤ a' → Memory.read m' i = 0#8 := fun i hi =>
        Memory.read_eq_zero_of_not_listed fun c hc => by have : a' < c.1 := p'.1 c hc; omega
      have haa : a = a' := by
        rcases Nat.lt_trichotomy a a' with hlt | heq | hgt
        · have := hr a
          simp [Memory.read, Nat.ne_of_gt hlt, hz' a (Nat.le_of_lt hlt)] at this
          exact absurd this hv
        · exact heq
        · have := hr a'
          simp [Memory.read, Nat.ne_of_gt hgt, hz a' (Nat.le_of_lt hgt)] at this
          exact absurd this.symm hv'
      subst haa
      have hvv : v = v' := by simpa [Memory.read] using hr a
      subst hvv
      rw [ih ⟨p.2, fun c hc => h.2 c (List.mem_cons_of_mem _ hc)⟩ ⟨p'.2, fun c hc => h'.2 c (List.mem_cons_of_mem _ hc)⟩]
      intro i
      by_cases hi : a = i
      · subst hi
        rw [hz a (Nat.le_refl a), hz' a (Nat.le_refl a)]
      · simpa [Memory.read, hi] using hr i

end Sys2Proof.Machine
end

