-- ==== Sys2Proof/Laws/State.lean ====
section
/-! SUPPORT. One lemma per field per update of the state, and the fields of the power-on state. -/

namespace Sys2Proof.Machine

variable (s : State)

@[simp] theorem State.respond_cfg (o : Option DataOut) : (s.respond o).cfg = s.cfg := rfl
@[simp] theorem State.respond_buf (o : Option DataOut) : (s.respond o).buf = s.buf := rfl
@[simp] theorem State.respond_refused (o : Option DataOut) : (s.respond o).refused = s.refused := rfl
@[simp] theorem State.respond_reason (o : Option DataOut) : (s.respond o).reason = s.reason := rfl
@[simp] theorem State.respond_requests (o : Option DataOut) : (s.respond o).requests = s.requests := rfl
@[simp] theorem State.respond_dataIn (o : Option DataOut) : (s.respond o).dataIn = s.dataIn := rfl
@[simp] theorem State.respond_out (o : Option DataOut) : (s.respond o).out = o := rfl
@[simp] theorem State.respond_size (o : Option DataOut) : (s.respond o).size = s.size := rfl

@[simp] theorem State.refuse_cfg (r : Reason) : (s.refuse r).cfg = s.cfg := rfl
@[simp] theorem State.refuse_buf (r : Reason) : (s.refuse r).buf = s.buf := rfl
@[simp] theorem State.refuse_refused (r : Reason) : (s.refuse r).refused = true := rfl
@[simp] theorem State.refuse_reason (r : Reason) : (s.refuse r).reason = some r := rfl
@[simp] theorem State.refuse_requests (r : Reason) : (s.refuse r).requests = s.requests := rfl
@[simp] theorem State.refuse_dataIn (r : Reason) : (s.refuse r).dataIn = s.dataIn := rfl
@[simp] theorem State.refuse_out (r : Reason) : (s.refuse r).out = none := rfl
@[simp] theorem State.refuse_size (r : Reason) : (s.refuse r).size = s.size := rfl

@[simp] theorem State.store_cfg (m : Memory) : (s.store m).cfg = s.cfg := rfl
@[simp] theorem State.store_buf (m : Memory) : (s.store m).buf = m := rfl
@[simp] theorem State.store_refused (m : Memory) : (s.store m).refused = s.refused := rfl
@[simp] theorem State.store_reason (m : Memory) : (s.store m).reason = s.reason := rfl
@[simp] theorem State.store_requests (m : Memory) : (s.store m).requests = s.requests := rfl
@[simp] theorem State.store_dataIn (m : Memory) : (s.store m).dataIn = s.dataIn := rfl
@[simp] theorem State.store_out (m : Memory) : (s.store m).out = none := rfl
@[simp] theorem State.store_size (m : Memory) : (s.store m).size = s.size := rfl

@[simp] theorem State.take_cfg (r : Request) (rest : List Request) : (s.take r rest).cfg = s.cfg := rfl
@[simp] theorem State.take_buf (r : Request) (rest : List Request) : (s.take r rest).buf = s.buf := rfl
@[simp] theorem State.take_refused (r : Request) (rest : List Request) : (s.take r rest).refused = s.refused := rfl
@[simp] theorem State.take_reason (r : Request) (rest : List Request) : (s.take r rest).reason = s.reason := rfl
@[simp] theorem State.take_requests (r : Request) (rest : List Request) : (s.take r rest).requests = rest := rfl
@[simp] theorem State.take_dataIn (r : Request) (rest : List Request) : (s.take r rest).dataIn = r.dataIn := rfl
@[simp] theorem State.take_out (r : Request) (rest : List Request) : (s.take r rest).out = s.out := rfl
@[simp] theorem State.take_size (r : Request) (rest : List Request) : (s.take r rest).size = s.size := rfl

@[simp] theorem State.issue_cfg (r : Request) : (s.issue r).cfg = s.cfg := rfl
@[simp] theorem State.issue_buf (r : Request) : (s.issue r).buf = s.buf := rfl
@[simp] theorem State.issue_refused (r : Request) : (s.issue r).refused = s.refused := rfl
@[simp] theorem State.issue_reason (r : Request) : (s.issue r).reason = s.reason := rfl
@[simp] theorem State.issue_requests (r : Request) : (s.issue r).requests = r :: s.requests := rfl
@[simp] theorem State.issue_dataIn (r : Request) : (s.issue r).dataIn = s.dataIn := rfl
@[simp] theorem State.issue_out (r : Request) : (s.issue r).out = s.out := rfl
@[simp] theorem State.issue_size (r : Request) : (s.issue r).size = s.size := rfl

@[simp] theorem State.powerOn_cfg (cfg : Config) : (State.powerOn cfg).cfg = cfg := rfl
@[simp] theorem State.powerOn_buf (cfg : Config) : (State.powerOn cfg).buf = [] := rfl
@[simp] theorem State.powerOn_refused (cfg : Config) : (State.powerOn cfg).refused = false := rfl
@[simp] theorem State.powerOn_reason (cfg : Config) : (State.powerOn cfg).reason = none := rfl
@[simp] theorem State.powerOn_requests (cfg : Config) : (State.powerOn cfg).requests = [] := rfl
@[simp] theorem State.powerOn_dataIn (cfg : Config) : (State.powerOn cfg).dataIn = none := rfl
@[simp] theorem State.powerOn_out (cfg : Config) : (State.powerOn cfg).out = none := rfl
@[simp] theorem State.powerOn_size (cfg : Config) : (State.powerOn cfg).size = cfg.size := rfl

end Sys2Proof.Machine
end

