-- ==== Sys2Proof/Laws/Operations.lean ====
section
/-! SUPPORT. For each shared operation and each meaning, one lemma that says once everything it can do. -/

namespace Sys2Proof.Machine

/-! ### Operands -/

theorem State.valueOperand_eq_some {s : State} {ty : ValueType} {v : Value} :
    s.valueOperand ty = some v ↔ s.dataIn = some (.value v) ∧ hasValue ty v = true := by
  unfold State.valueOperand
  split
  · rename_i w hw
    by_cases hv : hasValue ty w = true
    · simp only [hv, if_true, hw, Option.some.injEq, DataIn.value.injEq]
      exact ⟨fun e => ⟨e, e ▸ hv⟩, fun e => e.1⟩
    · simp only [hv, hw, Option.some.injEq, DataIn.value.injEq]
      exact ⟨fun e => by simp at e, fun e => absurd (e.1 ▸ e.2) hv⟩
  · simp_all
  · simp_all

theorem State.bytesOperand_eq_some {s : State} {bs : List Byte} :
    s.bytesOperand = some bs ↔ s.dataIn = some (.bytes bs) := by
  unfold State.bytesOperand
  split <;> simp_all

/-- The field a GET or SET names is missing, lies outside the buffer, or is used. -/
theorem State.withField_cases (s : State) (f : Nat) (use : FieldDescriptor → Result) :
    (s.cfg.desc[f]? = none ∧ s.withField f use = .next (s.refuse (.fieldIndex f))) ∨
    ∃ d, s.cfg.desc[f]? = some d ∧
      ((∃ idx, d.span.firstOutside s.size = some idx ∧ s.withField f use = .fault (.outsideBuffer idx)) ∨
        (d.span.firstOutside s.size = none ∧ s.withField f use = use d)) := by
  unfold State.withField
  cases hd : s.cfg.desc[f]? with
  | none => simp
  | some d =>
    cases ho : d.span.firstOutside s.size <;> simp [ho]

/-! ### Meanings -/

/-- FILL_MASK is refused or drives a byte. -/
theorem execFillMask_cases (lo hi : Nat) (s : State) :
    ((lo > 8 ∨ hi > 8 ∨ lo > hi) ∧ execFillMask lo hi s = .next (s.refuse (.maskArg lo hi))) ∨
    (lo ≤ hi ∧ hi ≤ 8 ∧ execFillMask lo hi s = .next (s.respond (some (.byte (fillMask lo hi))))) := by
  unfold execFillMask
  split
  · exact .inl ⟨‹_›, rfl⟩
  · exact .inr ⟨by omega, by omega, rfl⟩

/-- What GET does when it answers a next state: it is refused, or drives the decoded value. -/
theorem execGet_cases {f : Nat} {s t : State} (h : execGet f s = .next t) :
    (s.cfg.desc[f]? = none ∧ t = s.refuse (.fieldIndex f)) ∨
    ∃ d v, s.cfg.desc[f]? = some d ∧ decodeValue d.valueType (valueArray s.buf d.span) = some v ∧
      t = s.respond (some (.value v)) := by
  unfold execGet at h
  rcases s.withField_cases f (getField f s) with ⟨hn, he⟩ | ⟨d, hd, ⟨idx, -, he⟩ | ⟨-, he⟩⟩
  · rw [he] at h; cases h; exact .inl ⟨hn, rfl⟩
  · rw [he] at h; cases h
  · rw [he, getField] at h
    split at h
    · rename_i v hv
      cases h; exact .inr ⟨d, v, hd, hv, rfl⟩
    · cases h

/-- What SET does when it answers a next state: it is refused, or stores the merged bytes. -/
theorem execSet_cases {f : Nat} {s t : State} (h : execSet f s = .next t) :
    (s.cfg.desc[f]? = none ∧ t = s.refuse (.fieldIndex f)) ∨
    ∃ d, s.cfg.desc[f]? = some d ∧ d.span.firstOutside s.size = none ∧
      ((∃ v, s.dataIn = some (.value v) ∧ hasValue d.valueType v = true ∧
          t = s.store (writeField s.buf d.span (encodeValue d.span.byteLength v))) ∨
        (s.valueOperand d.valueType = none ∧ t = s.refuse (.valueType f s.dataIn))) := by
  unfold execSet at h
  rcases s.withField_cases f (setField f s) with ⟨hn, he⟩ | ⟨d, hd, ⟨idx, -, he⟩ | ⟨ho, he⟩⟩
  · rw [he] at h; cases h; exact .inl ⟨hn, rfl⟩
  · rw [he] at h; cases h
  · rw [he, setField] at h
    refine .inr ⟨d, hd, ho, ?_⟩
    split at h
    · rename_i v hv
      cases h; exact .inl ⟨v, (State.valueOperand_eq_some.1 hv).1, (State.valueOperand_eq_some.1 hv).2, rfl⟩
    · rename_i hv
      cases h; exact .inr ⟨hv, rfl⟩

/-- FROM is refused or replaces the buffer. -/
theorem execFromBuf_cases (s : State) :
    (∃ g, execFromBuf s = .next (s.refuse (.fromLength g))) ∨
    ∃ bs, s.dataIn = some (.bytes bs) ∧ bs.length = s.size ∧
      execFromBuf s = .next (s.store (s.buf.writeBytes 0 bs)) := by
  unfold execFromBuf
  split
  · rename_i bs hb
    split
    · exact .inr ⟨bs, State.bytesOperand_eq_some.1 hb, ‹_›, rfl⟩
    · exact .inl ⟨_, rfl⟩
  · exact .inl ⟨_, rfl⟩

/-! ### Every operation -/

/-- Whatever the operation, a next state is one of three: refused with a reason of codes 3 to 6, data-out driven and nothing
else changed, or the buffer rewritten within its `S` bytes by SET, DEFAULT or FROM. -/
theorem exec_cases {i : Instr} {s t : State} (h : exec i s = .next t) :
    (∃ r, 3 ≤ r.code ∧ r.code ≤ 6 ∧ t = s.refuse r) ∨ (∃ o, t = s.respond (some o)) ∨
    ∃ a bs, t = s.store (s.buf.writeBytes a bs) ∧
      ((i = .default ∧ a = 0 ∧ bs = List.replicate s.size 0#8) ∨ (i = .fromBuf ∧ a = 0 ∧ bs.length = s.size) ∨
        ∃ f d, i = .set f ∧ s.cfg.desc[f]? = some d ∧ d.span.firstOutside s.size = none ∧ a = d.span.firstByte ∧
          bs.length = d.span.touched) := by
  cases i with
  | fillMask lo hi =>
    rcases execFillMask_cases lo hi s with ⟨-, he⟩ | ⟨-, -, he⟩ <;> (rw [exec, he] at h; cases h)
    · exact .inl ⟨_, by simp [Reason.code], by simp [Reason.code], rfl⟩
    · exact .inr (.inl ⟨_, rfl⟩)
  | get f =>
    rcases execGet_cases h with ⟨-, rfl⟩ | ⟨d, v, -, -, rfl⟩
    · exact .inl ⟨_, by simp [Reason.code], by simp [Reason.code], rfl⟩
    · exact .inr (.inl ⟨_, rfl⟩)
  | set f =>
    rcases execSet_cases h with ⟨-, rfl⟩ | ⟨d, hd, ho, ⟨v, -, -, rfl⟩ | ⟨-, rfl⟩⟩
    · exact .inl ⟨_, by simp [Reason.code], by simp [Reason.code], rfl⟩
    · exact .inr (.inr ⟨_, _, rfl, .inr (.inr ⟨f, d, rfl, hd, ho, rfl, by simp [mergedBytes]⟩)⟩)
    · exact .inl ⟨_, by simp [Reason.code], by simp [Reason.code], rfl⟩
  | default => cases h; exact .inr (.inr ⟨_, _, rfl, .inl ⟨rfl, rfl, rfl⟩⟩)
  | fromBuf =>
    rcases execFromBuf_cases s with ⟨g, he⟩ | ⟨bs, -, hl, he⟩ <;> (rw [exec, he] at h; cases h)
    · exact .inl ⟨_, by simp [Reason.code], by simp [Reason.code], rfl⟩
    · exact .inr (.inr ⟨_, _, rfl, .inr (.inl ⟨rfl, rfl, hl⟩)⟩)
  | data => cases h; exact .inr (.inl ⟨_, rfl⟩)
  | clone => cases h; exact .inr (.inl ⟨_, rfl⟩)

/-! ### The step -/

/-- What a step that answers a next state did: nothing was pending, a reserved word was refused, or an operation ran. The
configuration was well-formed and the mark clear. -/
theorem step_cases {s t : State} (h : step s = .next t) :
    s.cfg.WellFormed ∧ s.refused = false ∧
    ((s.requests = [] ∧ t = s) ∨
      ∃ r rest, s.requests = r :: rest ∧
        ((∃ e, decode r.word = .error e ∧ t = (s.take r rest).refuse e) ∨
          ∃ i, decode r.word = .ok i ∧ exec i (s.take r rest) = .next t)) := by
  unfold step fetch at h
  cases hc : s.cfg.check with
  | some e => simp [hc] at h
  | none =>
    cases hr : s.refused with
    | true => simp [hc, hr] at h
    | false =>
      cases hq : s.requests with
      | nil =>
        simp [hc, hr, hq] at h
        exact ⟨hc, rfl, .inl ⟨rfl, h.symm⟩⟩
      | cons r rest =>
        refine ⟨hc, rfl, .inr ⟨r, rest, rfl, ?_⟩⟩
        cases hd : decode r.word with
        | error e =>
          simp [hc, hr, hq, hd] at h
          exact .inl ⟨e, rfl, h.symm⟩
        | ok i =>
          simp [hc, hr, hq, hd] at h
          exact .inr ⟨i, rfl, h⟩

end Sys2Proof.Machine
end

