-- ==== Sys2Proof/Laws/PerInstr.lean ====
section
/-! SUPPORT. A family of facts about each instruction as syntax: its operands stay inside the operand field `w[11:0]`, so its
opcode stands alone in `w[15:12]` (30_encoding.md R48, R49). -/

namespace Sys2Proof.Laws

/-- The command word of a well-formed instruction holds its opcode in `w[15:12]` and its operand field in `w[11:0]`. -/
def OpcodeField.Statement (i : Instr) : Prop :=
  i.wf = true → (encode i).toNat / 4096 = i.opcode ∧ (encode i).toNat % 4096 = i.operandField

theorem opcodeField_of_lt {i : Instr} (ho : i.opcode ≤ 6) (hf : i.wf = true → i.operandField < 4096) :
    OpcodeField.Statement i := by
  intro h
  have hf := hf h
  have hm : i.opcode * 4096 ≤ 6 * 4096 := Nat.mul_le_mul_right _ ho
  have he : (encode i).toNat = i.opcode * 4096 + i.operandField := by
    rw [encode, BitVec.toNat_ofNat, Nat.mod_eq_of_lt (by omega)]
  omega

theorem OpcodeField.fillMask (lo hi : Nat) : OpcodeField.Statement (.fillMask lo hi) :=
  opcodeField_of_lt (by simp [Instr.opcode]) fun h => by
    simp only [Instr.wf, Bool.and_eq_true, decide_eq_true_eq] at h
    simp only [Instr.operandField]
    omega

theorem OpcodeField.get (f : Nat) : OpcodeField.Statement (.get f) :=
  opcodeField_of_lt (by simp [Instr.opcode]) fun h => by simpa [Instr.wf, Instr.operandField] using h

theorem OpcodeField.set (f : Nat) : OpcodeField.Statement (.set f) :=
  opcodeField_of_lt (by simp [Instr.opcode]) fun h => by simpa [Instr.wf, Instr.operandField] using h

theorem OpcodeField.default : OpcodeField.Statement .default :=
  opcodeField_of_lt (by simp [Instr.opcode]) fun _ => by simp [Instr.operandField]

theorem OpcodeField.fromBuf : OpcodeField.Statement .fromBuf :=
  opcodeField_of_lt (by simp [Instr.opcode]) fun _ => by simp [Instr.operandField]

theorem OpcodeField.data : OpcodeField.Statement .data :=
  opcodeField_of_lt (by simp [Instr.opcode]) fun _ => by simp [Instr.operandField]

theorem OpcodeField.clone : OpcodeField.Statement .clone :=
  opcodeField_of_lt (by simp [Instr.opcode]) fun _ => by simp [Instr.operandField]

end Sys2Proof.Laws
end

