-- ==== Sys2Proof/Tests/Slice0.lean ====
section
/-! SUPPORT. The model's own tests. Expected results are those of spec/: 95_test_vectors.md (S1 .. D-DC-10), the corner cases of
the instruction rules and words written out from the tables of 30_encoding.md. The witnesses at the end show that the
premises of each statement can be met, each clause at the ends of its range. -/

namespace Sys2Proof.Tests

open Sys2Proof Sys2Proof.Machine

/-! ### Helpers -/

/-- The next state of an outcome, if it has one. -/
def nextOf : Result → Option State
  | .next s => some s
  | .fault _ => none
  | .refused _ => none

/-- The refusal of an outcome, if it is one. -/
def refusalOf : Result → Option Refusal
  | .next _ => none
  | .fault _ => none
  | .refused r => some r

/-- A buffer with these bytes from address 0 on. -/
def bufOf (bs : List Byte) : Memory := Memory.writeBytes [] 0 bs

/-- One field of the given span and type, with 8, 16 and 32 admitted as widths. -/
def oneField (sp : BitSpan) (ty : ValueType) : Config :=
  { desc := [{ name := "x", span := sp, valueType := ty }], uintWidths := [8, 16, 32] }

/-- A block with one field, the given buffer and data-in. -/
def block (sp : BitSpan) (ty : ValueType) (bs : List Byte) (d : Option DataIn) : State :=
  { State.powerOn (oneField sp ty) with buf := bufOf bs, dataIn := d }

/-- What an instruction drives on data-out. -/
def outOf (i : Instr) (s : State) : Option DataOut := (nextOf (exec i s)).bind State.out

/-- The buffer an instruction leaves. -/
def bufAfter (i : Instr) (s : State) : Option Memory := (nextOf (exec i s)).map State.buf

/-- The reason an instruction is refused for. -/
def reasonOf (i : Instr) (s : State) : Option Reason := (nextOf (exec i s)).bind State.reason

/-! ### Decoding: words written out bit by bit from the formats of 30_encoding.md R49 and R52 -/

theorem test_decode_fill_mask : decode 0b0000000010010011#16 = .ok (.fillMask 3 9) := by decide
theorem test_decode_get : decode 0b0001100000000101#16 = .ok (.get 2053) := by decide
theorem test_decode_set : decode 0b0010000000010010#16 = .ok (.set 18) := by decide
theorem test_decode_default : decode 0b0011000000000000#16 = .ok .default := by decide
theorem test_decode_from : decode 0b0100000000000000#16 = .ok .fromBuf := by decide
theorem test_decode_data : decode 0b0101000000000000#16 = .ok .data := by decide
theorem test_decode_clone : decode 0b0110000000000000#16 = .ok .clone := by decide
theorem test_decode_reserved_op : decode 0b1111000100100011#16 = .error (.reservedOp 0xF123#16) := by decide
theorem test_decode_reserved_bits : decode 0b0011000000000001#16 = .error (.reservedBits 0x3001#16) := by decide
theorem test_table_word : decodeTableWord 16 0x0073 = some (.fillMask 3 7) := by decide
theorem test_encode_examples :
    [Instr.get 3, .set 0, .fillMask 2 6, .clone].map encode = [0x1003#16, 0x2000#16, 0x0062#16, 0x6000#16] := by decide

/-! ### Ill-formed terms, each refused by its check -/

theorem test_wf_refuses_wide_operands :
    [Instr.fillMask 16 0, .fillMask 0 16, .get 4096, .set 4096].map Instr.wf = [false, false, false, false] := by decide

/-- WF1 refuses both forms at once and neither (10_state.md R19). -/
theorem test_wf1_refuses :
    (oneField { single := some 1, range := some (1, 2) } .bool).check = some (.wf1, some 0) ∧
    (oneField { single := none, range := none } .bool).check = some (.wf1, some 0) := by decide

/-- WF2 refuses `Range(5,5)` (D-DC-10). -/
theorem test_wf2_refuses : (oneField (.ofRange 5 5) .bool).check = some (.wf2, some 0) := by decide

theorem test_wf3_refuses :
    (oneField (.ofSingle 256) .bool).check = some (.wf3, some 0) ∧
    (oneField (.ofRange 0 256) .bool).check = some (.wf3, some 0) := by decide

/-- WF4 refuses a width that is no positive multiple of 8 of UINT_WIDTHS, another byte order and an unlisted type
(41_value_codec.md R68, R76). -/
theorem test_wf4_refuses :
    [ValueType.uint 12, .uint 0, .uint 64, .wrapped (.other "big") 16, .unlisted "i8"].map
      (fun ty => (oneField (.ofRange 0 8) ty).check) = List.replicate 5 (some (.wf4, some 0)) := by decide

/-- WF5 refuses 4097 descriptors. -/
theorem test_wf5_refuses :
    ({ desc := List.replicate 4097 { name := "x", span := .ofSingle 0, valueType := .bool },
       uintWidths := [] } : Config).check = some (.wf5, none) := by decide +kernel

theorem test_ill_formed_block_takes_no_step :
    refusalOf (step (block (.ofRange 5 5) .bool [] none)) = some (.config .wf2 (some 0)) := by decide

/-! ### Helpers of GET and SET (D-EX-6, D-EX-5, D-CO-5, D-CO-8, D-CO-10) -/

theorem test_extract_byte_straddling :
    (extractByte (bufOf [0xB6#8, 0x5C#8, 0xE3#8]) 4 8, extractByte (bufOf [0xB6#8, 0x5C#8, 0xE3#8]) 6 4) =
      (0xCB#8, 0x02#8) := by decide
theorem test_codec :
    leBytes 3 0x12345678 = [0x78#8, 0x56#8, 0x34#8] ∧ decodeValue (.uint 8) [0x34#8, 0x12#8] = some (.uint 0x34) ∧
    decodeValue .bool [0x03#8, 0xFF#8] = some (.bool true) := by decide
/-- `Single(31)` with `Range(0,16)` needs 4 bytes (90_conflicts.md C5). -/
theorem test_size_is_by_last_bit :
    ({ desc := [{ name := "a", span := .ofSingle 31, valueType := .bool },
        { name := "b", span := .ofRange 0 16, valueType := .bool }], uintWidths := [] } : Config).size = 4 := by decide

/-! ### The operations -/

/-- 40_mask_engine.md R61, example. -/
theorem test_fill_mask : outOf (.fillMask 2 6) State.reset = some (.byte 0x3C#8) := by decide
/-- D-FM-7. -/
theorem test_fill_mask_refused : reasonOf (.fillMask 9 0) State.reset = some (.maskArg 9 0) := by decide

/-- S4: the second byte's mask is the field's, not the offset's (90_conflicts.md C2). -/
theorem test_get_across_boundary :
    outOf (.get 0) (block (.ofRange 6 10) (.uint 8) [0b01111111#8, 0b11111100#8] none) = some (.value (.uint 1)) := by
  decide
/-- D-GET-9: three touched bytes. -/
theorem test_get_three_bytes :
    outOf (.get 0) (block (.ofRange 4 20) (.uint 16) [0xA5#8, 0x3C#8, 0xF0#8] none) = some (.value (.uint 0x03CA)) := by
  decide

/-- D-SET-2: the bits of the first byte below the offset are kept (90_conflicts.md C3). -/
theorem test_set_keeps_other_bits :
    bufAfter (.set 0) (block (.ofRange 6 10) (.uint 8) [0xFF#8, 0xFF#8] (some (.value (.uint 0)))) =
      some [(0, 0x3F#8), (1, 0xFC#8)] := by decide
/-- D-SET-9. -/
theorem test_set_three_bytes :
    bufAfter (.set 0) (block (.ofRange 4 20) (.uint 16) [0x0F#8, 0x00#8, 0xF0#8] (some (.value (.uint 0xBEEF)))) =
      some [(0, 0xFF#8), (1, 0xEE#8), (2, 0xFB#8)] := by decide

/-- D-RG-1. -/
theorem test_default :
    bufAfter .default (block (.ofSingle 15) .bool [0xAB#8, 0xCD#8] none) = some [] := by decide
/-- D-RG-2. -/
theorem test_from :
    bufAfter .fromBuf (block (.ofSingle 15) .bool [] (some (.bytes [0x3F#8, 0xFC#8]))) =
      some [(0, 0x3F#8), (1, 0xFC#8)] := by decide
/-- D-RG-3. -/
theorem test_from_refused :
    reasonOf .fromBuf (block (.ofSingle 15) .bool [] (some (.bytes [0x01#8]))) = some (.fromLength (some 1)) := by decide
/-- D-RG-6: a register with no fields has no bytes. -/
theorem test_data_of_no_bytes :
    outOf .data (State.powerOn { desc := [], uintWidths := [] }) = some (.bytes []) := by decide
/-- D-RG-5. -/
theorem test_clone :
    outOf .clone (block (.ofSingle 15) .bool [0x12#8, 0x34#8] none) = some (.bytes [0x12#8, 0x34#8]) := by decide

/-! ### The step and the text form -/

/-- `set #4` as the first operation after reset: the top bit of configuration P takes the all-zero data-in. -/
theorem test_first_step : (nextOf (step (State.reset.withFetchWord 16 0x2004))).map State.refused = some false := by decide
/-- Program 3, step 7: a reserved word sets the mark, and step 8 is not executed. -/
theorem test_reserved_word_sets_the_mark :
    (nextOf (step (State.reset.withFetchWord 16 0x7000))).map State.reason = some (some (.reservedOp 0x7000#16)) := by decide
theorem test_halted :
    refusalOf (step ((State.reset.refuse (.reservedOp 0x7000#16)).withFetchWord 16 0x5000)) = some .halted := by decide

/-- A line of Program 2 with the name `mode` and a comment, and one of Program 1 (95_test_vectors.md). -/
theorem test_assemble :
    assemble .configurationP "set mode, 0xFA ; truncated\nfrom 0xFF, 0xFF, 0b11, 7" =
      some [{ word := 0x2001#16, dataIn := some (.value (.uint 0xFA)) },
        { word := 0x4000#16, dataIn := some (.bytes [0xFF#8, 0xFF#8, 0x03#8, 0x07#8]) }] := by decide
theorem test_assemble_rejects : assemble .configurationP "fill_mask 6, 2" = none := by decide

/-! ### Witnesses: the premises of each statement met by concrete values, each clause at the ends of its range -/

/-- Fields of every type, touching 1, 2 and 32 bytes, the last bit of the buffer among them. -/
def fields : Config where
  desc :=
    [ { name := "all", span := .ofRange 0 255, valueType := .uint 8 },
      { name := "last", span := .ofSingle 255, valueType := .bool },
      { name := "cnt", span := .ofRange 6 10, valueType := .uint 8 },
      { name := "four", span := .ofRange 2 6, valueType := .bool },
      { name := "le", span := .ofRange 8 24, valueType := .wrapped .little 16 },
      { name := "mid", span := .ofRange 16 24, valueType := .uint 32 } ]
  uintWidths := [8, 16, 32]

/-- A block with these fields, a nonzero first byte and the given data-in. -/
def sample (d : Option DataIn) : State := { State.powerOn fields with buf := [(0, 0x09#8)], dataIn := d }

/-- The block with one request pending. -/
def issued (w : Word) (d : Option DataIn) : State := (sample none).issue { word := w, dataIn := d }

/-- A configuration that fails WF2. -/
def illFormed : Config := oneField (.ofRange 5 5) .bool

def dAll : FieldDescriptor := { name := "all", span := .ofRange 0 255, valueType := .uint 8 }
def dLast : FieldDescriptor := { name := "last", span := .ofSingle 255, valueType := .bool }
def dCnt : FieldDescriptor := { name := "cnt", span := .ofRange 6 10, valueType := .uint 8 }
def dFour : FieldDescriptor := { name := "four", span := .ofRange 2 6, valueType := .bool }
def dLe : FieldDescriptor := { name := "le", span := .ofRange 8 24, valueType := .wrapped .little 16 }
def dMid : FieldDescriptor := { name := "mid", span := .ofRange 16 24, valueType := .uint 32 }

theorem witness_fields : fields.WellFormed ∧ fields.desc = [dAll, dLast, dCnt, dFour, dLe, dMid] ∧ fields.size = 32 := by
  decide
theorem witness_spans :
    ∀ sp ∈ [dAll.span, dLast.span, dCnt.span, dFour.span, dLe.span, BitSpan.ofSingle 0, .ofRange 254 255], SpanOk sp := by
  decide

theorem witness_DecodeInvertsEncode :
    ∀ i ∈ [Instr.fillMask 0 0, .fillMask 15 15, .get 0, .get 4095, .set 0, .set 4095, .default, .fromBuf, .data, .clone],
      i.wf = true := by decide
theorem witness_EncodeInvertsDecode :
    decode 0x00FF#16 = .ok (.fillMask 15 15) ∧ decode 0x1FFF#16 = .ok (.get 4095) ∧ decode 0x2FFF#16 = .ok (.set 4095) ∧
      decode 0x6000#16 = .ok .clone := by decide
/-- The premises of the ten clauses, in their order. -/
theorem witness_DecodeIsTotalAsTabulated :
    (0x00FF / 4096 = 0 ∧ 0x00FF % 4096 / 256 = 0) ∧ (0x0100 / 4096 = 0 ∧ 0x0100 % 4096 / 256 ≠ 0) ∧
    (0x0FFF / 4096 = 0 ∧ 0x0FFF % 4096 / 256 ≠ 0) ∧ 0x1FFF / 4096 = 1 ∧ 0x2000 / 4096 = 2 ∧
    (0x3000 / 4096 = 3 ∧ 0x3000 % 4096 = 0) ∧ (0x4000 / 4096 = 4 ∧ 0x4000 % 4096 = 0) ∧
    (0x5000 / 4096 = 5 ∧ 0x5000 % 4096 = 0) ∧ (0x6000 / 4096 = 6 ∧ 0x6000 % 4096 = 0) ∧
    (3 ≤ 0x3001 / 4096 ∧ 0x3001 / 4096 ≤ 6 ∧ 0x3001 % 4096 ≠ 0) ∧
    (3 ≤ 0x6FFF / 4096 ∧ 0x6FFF / 4096 ≤ 6 ∧ 0x6FFF % 4096 ≠ 0) ∧ 7 ≤ 0x7000 / 4096 ∧ 7 ≤ 0xFFFF / 4096 := by decide
theorem witness_DecodeAgreesWithMatchAndMask :
    0x00FF#16 &&& (Instr.fillMask 0 0).maskWord = (Instr.fillMask 0 0).matchWord ∧ decode 0x00FF#16 = .ok (.fillMask 15 15) ∧
      (Instr.fillMask 15 15).opcode = (Instr.fillMask 0 0).opcode := by decide
theorem witness_FieldNameIsFirstDescriptorSoNamed :
    fieldNamed "last".toList (dAll :: dLast :: dLast :: []) = some 1 ∧ fieldNamed "x".toList [] = none := by decide

/-- The bounds at both ends, equal bounds among them. -/
theorem witness_FillMaskSetsExactlyItsBits :
    ∀ p ∈ [(0, 0), (0, 8), (8, 8), (3, 7)], p.1 ≤ p.2 ∧ p.2 ≤ 8 := by decide
theorem witness_FillMaskLaws :
    ((0 : Nat) ≤ 8 ∧ 8 ≤ 8 ∧ 8 ≤ 8) ∧ ((0 : Nat) ≤ 3 ∧ 3 ≤ 8 ∧ 8 ≤ 8) ∧ 0 + 8 ≤ 8 ∧ 8 + 0 ≤ 8 := by decide
/-- The last clause: `from` too great, `to` too great, the bounds crossed. -/
theorem witness_FillMaskOperation :
    (15 < 16 ∧ 0x0100 / 4096 = 0 ∧ 0x0100 / 256 % 16 ≠ 0) ∧
    (∀ p ∈ [(0, 8), (8, 8)], p.1 ≤ p.2 ∧ p.2 ≤ 8) ∧
    ∀ p ∈ [(9, 15), (0, 9), (1, 0), (8, 7)], 8 < p.1 ∨ 8 < p.2 ∨ p.2 < p.1 := by decide
theorem witness_ExtractByteReadsItsBits : ∀ len ∈ [1, 8], 1 ≤ len ∧ len ≤ 8 := by decide
theorem witness_RawBytePlacesValueBits : ∀ o ∈ [0, 7], ∀ p ∈ [0, 7], o < 8 ∧ p < 8 := by decide
theorem witness_WriteMaskIsTheSpanInThatByte :
    ∀ q ∈ [(dAll.span, 0), (dAll.span, 31), (dLast.span, 0), (dCnt.span, 1)], SpanOk q.1 ∧ q.2 < q.1.touched := by decide
theorem witness_SpanDerivedProperties : 0 < 255 ∧ 254 < 255 ∧ SpanOk dAll.span ∧ SpanOk dLast.span ∧ 254 ≤ 254 := by decide
theorem witness_RegisterSizeFollowsGreatestLastBit :
    ({ desc := [], uintWidths := [] } : Config).WellFormed ∧ fields.WellFormed ∧ fields.desc ≠ [] ∧ dLast ∈ fields.desc := by
  decide
theorem witness_SegmentsPartitionTheSpan :
    SpanOk dCnt.span ∧ dCnt.span.segments[0]? = some { idx := 0, lo := 6, hi := 8 } ∧
      dCnt.span.segments[1]? = some { idx := 1, lo := 0, hi := 2 } ∧ SpanOk dAll.span ∧
      dAll.span.segments[31]? = some { idx := 31, lo := 0, hi := 7 } := by decide
/-- `N` touched bytes and `N + 1`. -/
theorem witness_TouchedByteCount :
    SpanOk dAll.span ∧ dAll.span.touched = dAll.span.byteLength ∧ SpanOk dCnt.span ∧
      dCnt.span.touched = dCnt.span.byteLength + 1 := by decide
theorem witness_AccessesStayInsideTheBuffer :
    fields.WellFormed ∧ dAll ∈ fields.desc ∧ dLast ∈ fields.desc ∧ 31 < dAll.span.byteLength := by decide
theorem witness_WellFormedIsTheFiveChecks : fields.WellFormed ∧ ¬ illFormed.WellFormed := by decide

theorem witness_UnsignedDecodeIsLittleEndianModWidth :
    [0xFF#8, 0xFF#8].length ≤ 2 ∧ 1 < [0xFF#8, 0xFF#8].length ∧ ([] : List Byte).length ≤ 0 := by decide
theorem witness_UnsignedEncodeIsLittleEndian : 31 < 32 ∧ 0xFF < 2 ^ (8 * 1) ∧ 1 ≤ 1 := by decide
theorem witness_UnsignedCodecRoundTrip : 0xFFFF < 2 ^ 16 ∧ 16 ≤ 8 * 2 := by decide
/-- The bool field `four` holds `0b0010`. -/
theorem witness_BoolDecodeReadsBitZeroOnly :
    (sample none).cfg.WellFormed ∧ (sample none).cfg.desc[3]? = some dFour ∧ dFour.valueType = .bool ∧
      dFour.span.bitLength = 4 ∧ fieldInteger (sample none).buf dFour.span = 0b0010 := by decide
theorem witness_BoolEncodesInByteZero :
    (sample (some (.value (.bool true)))).cfg.WellFormed ∧
      (sample (some (.value (.bool true)))).cfg.desc[3]? = some dFour ∧ dFour.valueType = .bool ∧
      dFour.span.firstBit < 3 ∧ 5 ≤ dFour.span.lastBit := by decide

theorem witness_ValueArrayHoldsTheFieldBits : SpanOk dAll.span ∧ 255 < 8 * dAll.span.byteLength := by decide
theorem witness_GetReturnsUnsignedField :
    (sample none).cfg.WellFormed ∧ (sample none).cfg.desc[0]? = some dAll ∧ IsUnsigned dAll.valueType 8 ∧
      (sample none).cfg.desc[4]? = some dLe ∧ IsUnsigned dLe.valueType 16 := by decide
theorem witness_GetReturnsBoolField :
    (sample none).cfg.WellFormed ∧ (sample none).cfg.desc[1]? = some dLast ∧ dLast.valueType = .bool := by decide
/-- Two states that differ in data-in and share the buffer, at the greatest index. -/
theorem witness_GetIsIdempotent :
    (sample none).cfg.WellFormed ∧ 5 < (sample none).cfg.fieldCount ∧
      (sample (some (.bytes []))).cfg = (sample none).cfg ∧ (sample (some (.bytes []))).buf = (sample none).buf := by decide
theorem witness_MissingFieldIsRefused : (sample none).cfg.fieldCount ≤ 6 ∧ (sample none).cfg.fieldCount ≤ 4095 := by decide

/-- The greatest value of each width, and a bool. -/
theorem witness_SetWritesExactlyTheSpan :
    (sample none).cfg.WellFormed ∧ (sample (some (.value (.uint 0xFF)))).dataIn = some (.value (.uint 0xFF)) ∧
      fields.desc[0]? = some dAll ∧ hasValue dAll.valueType (.uint 0xFF) = true ∧
      hasValue dLe.valueType (.uint 0xFFFF) = true ∧ hasValue dLast.valueType (.bool true) = true := by decide
/-- No value, a byte list, an integer one too great, a bool: all wrong for `cnt`. -/
theorem witness_SetRefusesDataOfTheWrongType :
    ((sample none).cfg.WellFormed ∧ (sample none).cfg.desc[2]? = some dCnt) ∧
      ∀ d ∈ [none, some (.bytes [0x01#8]), some (.value (.uint 256)), some (.value (.bool true))],
        ∀ v, (sample d).dataIn = some (.value v) → hasValue dCnt.valueType v = false := by
  refine ⟨by decide, fun d hd v h => ?_⟩
  simp only [List.mem_cons, List.not_mem_nil, or_false] at hd
  rcases hd with rfl | rfl | rfl | rfl <;> cases h <;> rfl
theorem witness_SetTruncatesSilently :
    (sample (some (.value (.uint 0xFF)))).cfg.WellFormed ∧
      (sample (some (.value (.uint 0xFF)))).cfg.desc[2]? = some dCnt ∧ IsUnsigned dCnt.valueType 8 ∧ 0xFF < 2 ^ 8 ∧
      dCnt.span.bitLength < 8 ∧ fields.desc[0]? = some dAll ∧ IsUnsigned dAll.valueType 8 ∧ 254 < dAll.span.bitLength := by
  decide
theorem witness_GetAfterSetReturnsTheValue :
    (sample (some (.value (.uint 0xFF)))).cfg.WellFormed ∧
      (sample (some (.value (.uint 0xFF)))).cfg.desc[2]? = some dCnt ∧ IsUnsigned dCnt.valueType 8 ∧ 0xFF < 2 ^ 8 ∧
      dCnt.span.bitLength ≤ 8 ∧ (sample (some (.value (.bool true)))).cfg.desc[3]? = some dFour ∧
      dFour.valueType = .bool := by decide
theorem witness_SetIsIdempotent :
    (sample (some (.value (.uint 0xFF)))).cfg.WellFormed ∧ (sample (some (.value (.uint 0xFF)))).buf.wf ∧
      (sample (some (.value (.uint 0xFF)))).cfg.desc[0]? = some dAll ∧ hasValue dAll.valueType (.uint 0xFF) = true := by
  decide
/-- Fields that share byte 1, and the two ends of the buffer. -/
theorem witness_DisjointSetDoesNotDisturbGet :
    (sample (some (.value (.uint 0xFF)))).cfg.WellFormed ∧ fields.desc[2]? = some dCnt ∧ fields.desc[3]? = some dFour ∧
      SpansDisjoint dCnt.span dFour.span ∧ fields.desc[1]? = some dLast ∧ SpansDisjoint dCnt.span dLast.span ∧
      hasValue dCnt.valueType (.uint 0xFF) = true := by decide
/-- `mid` is the upper byte of `le`: both last bits are 23. -/
theorem witness_InnerFieldReadsTheOuterValue :
    (sample (some (.value (.uint 0xFFFF)))).cfg.WellFormed ∧ fields.desc[4]? = some dLe ∧ fields.desc[5]? = some dMid ∧
      IsUnsigned dLe.valueType 16 ∧ IsUnsigned dMid.valueType 32 ∧ 0xFFFF < 2 ^ 16 ∧
      dLe.span.firstBit ≤ dMid.span.firstBit ∧ dMid.span.lastBit ≤ dLe.span.lastBit := by decide

theorem witness_DefaultZeroesTheBuffer :
    (0x3FFF / 4096 = 3 ∧ 0x3FFF % 4096 ≠ 0) ∧ (sample none).cfg.WellFormed ∧ (sample none).cfg.desc[1]? = some dLast ∧
      31 < (sample none).size ∧ (nextOf (exec .default (sample none))).isSome = true := by decide
theorem witness_FromReplacesTheBuffer :
    (0x4001 / 4096 = 4 ∧ 0x4001 % 4096 ≠ 0) ∧ (List.replicate 32 0xFF#8).length = (sample none).size ∧
      (List.replicate 31 0xFF#8).length ≠ (sample none).size ∧
      ([] : List Byte).length = (State.powerOn { desc := [], uintWidths := [] }).size := by decide
theorem witness_FromRefusesDataThatIsNoBytes :
    ∀ d ∈ [none, some (DataIn.value (.uint 3)), some (.value (.bool false))],
      ∀ bs, (sample d).dataIn ≠ some (.bytes bs) := by
  intro d hd bs h
  simp only [List.mem_cons, List.not_mem_nil, or_false] at hd
  rcases hd with rfl | rfl | rfl <;> cases h
theorem witness_DataReturnsTheBuffer : (0x5001 / 4096 = 5 ∧ 0x5001 % 4096 ≠ 0) ∧ 31 < (sample none).size := by decide

/-- `sample` meets the invariant, and so does it after a refusal. -/
theorem witness_invariant : (sample none).Inv ∧ ((sample none).refuse (.fieldIndex 6)).Inv :=
  ⟨⟨by decide, by decide, by decide, by decide, by decide, by decide⟩,
    ⟨by decide, by decide, by decide, by decide, by rintro _ ⟨⟩; decide, by decide⟩⟩
theorem witness_CloneCopiesTheBuffer :
    (0x6FFF / 4096 = 6 ∧ 0x6FFF % 4096 ≠ 0) ∧ 31 < (sample none).size ∧ (sample none).Inv :=
  ⟨by decide, by decide, witness_invariant.1⟩
theorem witness_DefaultRestoresThePowerOnBuffer : (sample none).Inv ∧ (sample none).buf ≠ [] :=
  ⟨witness_invariant.1, by decide⟩
theorem witness_ResetAndDefaultValues :
    fields.WellFormed ∧ exec .default (sample none) = .next { sample none with buf := [], out := none } :=
  ⟨by decide, rfl⟩
theorem witness_ConstructionGivesZerosOrTheBytes :
    fields.WellFormed ∧ (List.replicate 32 0xFF#8).length = fields.size := by decide
theorem witness_IllFormedConfigurationHasNoRun :
    illFormed.check = some (.wf2, some 0) ∧ (State.powerOn illFormed).cfg = illFormed := by decide

theorem witness_StepRunsTheDecodedOperation :
    (issued 0x1005#16 none).Ready ∧ (issued 0x1005#16 none).requests = [{ word := 0x1005#16, dataIn := none }] ∧
      decode 0x1005#16 = .ok (.get 5) := by decide
theorem witness_StepRefusesReservedWords :
    (issued 0x7000#16 none).Ready ∧ decode 0x7000#16 = .error (.reservedOp 0x7000#16) ∧
      decode 0x0F00#16 = .error (.reservedBits 0x0F00#16) := by decide
theorem witness_IdleBlockHoldsItsState : (sample none).Ready ∧ (sample none).requests = [] := by decide
theorem witness_HaltedBlockTakesNoOperation :
    ((sample none).refuse (.fieldIndex 6)).cfg.WellFormed ∧ ((sample none).refuse (.fieldIndex 6)).refused = true := by
  decide
/-- A step that sets the mark: GET of a field that does not exist. -/
theorem witness_RefusedOperationIsPrecise :
    step (issued 0x1006#16 none) = .next ((sample none).refuse (.fieldIndex 6)) ∧
      (issued 0x1006#16 none).refused = false ∧ ((sample none).refuse (.fieldIndex 6)).refused = true :=
  ⟨rfl, rfl, rfl⟩
theorem witness_NoOperationClearsTheMark :
    exec .data { State.powerOn { desc := [], uintWidths := [] } with refused := true } =
      .next { State.powerOn { desc := [], uintWidths := [] } with refused := true, out := some (.bytes []) } := rfl
theorem witness_ConfigurationIsFixedAndRequestsInOrder :
    step (issued 0x3000#16 none) = .next { sample none with buf := [] } := rfl
theorem witness_OnlySetDefaultAndFromWriteTheBuffer :
    exec .default (sample none) = .next { sample none with buf := [] } ∧
      step (issued 0x3000#16 none) = .next { sample none with buf := [] } ∧
      ({ sample none with buf := [] } : State).buf ≠ (sample none).buf :=
  ⟨rfl, rfl, by decide⟩
theorem witness_EveryStepOfAReadyBlockCompletes : (issued 0x2001#16 (some (.value (.bool true)))).Ready := by decide
theorem witness_StepKeepsTheInvariant :
    (sample none).Inv ∧ step (sample none) = .next (sample none) ∧
      State.Inv (issued 0x1006#16 none) ∧ step (issued 0x1006#16 none) = .next ((sample none).refuse (.fieldIndex 6)) :=
  ⟨witness_invariant.1, rfl, ⟨by decide, by decide, by decide, by decide, by decide, by decide⟩, rfl⟩
theorem witness_PowerOnMeetsTheInvariant : construct fields = .next (State.powerOn fields) := rfl

end Sys2Proof.Tests
end

section
/-! What a step of a ready block does with the host's next request (00_scope.md R6; 30_encoding.md R48). -/

namespace Sys2Proof.Machine

/-- A ready block passes the two checks that come before the word, those of the configuration and of the mark
(60_exceptions.md R98), so it takes the request. -/
theorem fetch_eq_run {s : State} {r : Request} {rest : List Request} {i : Instr} (hs : s.Ready)
    (hq : s.requests = r :: rest) (hd : decode r.word = .ok i) : fetch s = .run i (s.take r rest) := by
  obtain ⟨hwf, hmark⟩ := hs
  simp [fetch, hwf, hmark, hq, hd]

theorem step_of_fetch_run {s t : State} {i : Instr} (h : fetch s = .run i t) : step s = exec i t := by
  rw [step, h]

/-- Settles O48: the fetch of a ready block hands the decoded operation to the step. -/
theorem stepRunsTheDecodedOperation : Obligations.StepRunsTheDecodedOperation := by
  intro s r rest i hs hq hd
  have hrun : fetch s = .run i (s.take r rest) := fetch_eq_run hs hq hd
  exact step_of_fetch_run hrun

end Sys2Proof.Machine
end

section
/-! The derived properties of a span and the shape a valid span has (10_state.md R16, R17; checks WF1 to WF3 of R19). -/

namespace Sys2Proof

open Machine

/-! ### The two forms of span -/

@[simp] theorem BitSpan.firstBit_ofSingle (b : Nat) : (BitSpan.ofSingle b).firstBit = b := rfl
@[simp] theorem BitSpan.lastBit_ofSingle (b : Nat) : (BitSpan.ofSingle b).lastBit = b := rfl
@[simp] theorem BitSpan.firstBit_ofRange (a e : Nat) : (BitSpan.ofRange a e).firstBit = a := rfl
@[simp] theorem BitSpan.lastBit_ofRange (a e : Nat) : (BitSpan.ofRange a e).lastBit = e - 1 := rfl

@[simp] theorem BitSpan.bitLength_ofSingle (b : Nat) : (BitSpan.ofSingle b).bitLength = 1 := by
  simp [BitSpan.bitLength]

theorem BitSpan.bitLength_ofRange {a e : Nat} (h : a < e) : (BitSpan.ofRange a e).bitLength = e - a := by
  simp only [BitSpan.bitLength, BitSpan.firstBit_ofRange, BitSpan.lastBit_ofRange]
  omega

theorem BitSpan.byteLength_congr {sp sp' : BitSpan} (h : sp.bitLength = sp'.bitLength) :
    sp.byteLength = sp'.byteLength := by
  rw [BitSpan.byteLength, BitSpan.byteLength, h]

/-- WF1 to WF3 together leave the two forms of R16, each with its bounds (10_state.md R19). -/
theorem spanOk_iff {sp : BitSpan} :
    SpanOk sp ↔ (∃ b, sp = BitSpan.ofSingle b ∧ b ≤ 255) ∨
      (∃ a e, sp = BitSpan.ofRange a e ∧ a < e ∧ a ≤ 255 ∧ e ≤ 255) := by
  obtain ⟨single, range⟩ := sp
  cases single with
  | none =>
    cases range with
    | none => simp [SpanOk, BitSpan.shapeOk]
    | some r =>
      obtain ⟨a, e⟩ := r
      simp [SpanOk, BitSpan.shapeOk, BitSpan.orderOk, BitSpan.widthOk]
  | some b =>
    cases range with
    | none => simp [SpanOk, BitSpan.shapeOk, BitSpan.orderOk, BitSpan.widthOk]
    | some r => simp [SpanOk, BitSpan.shapeOk]

theorem firstBit_le_lastBit {sp : BitSpan} (h : SpanOk sp) : sp.firstBit ≤ sp.lastBit := by
  rcases spanOk_iff.1 h with ⟨b, rfl, -⟩ | ⟨a, e, rfl, hae, -, -⟩
  · simp
  · simp only [BitSpan.firstBit_ofRange, BitSpan.lastBit_ofRange]
    omega

theorem lastBit_le_255 {sp : BitSpan} (h : SpanOk sp) : sp.lastBit ≤ 255 := by
  rcases spanOk_iff.1 h with ⟨b, rfl, hb⟩ | ⟨a, e, rfl, -, -, he⟩
  · simpa using hb
  · simp only [BitSpan.lastBit_ofRange]
    omega

/-- A `Range` ends at 255 at the latest, so no span holds all 256 positions (10_state.md R16). -/
theorem bitLength_le_255 {sp : BitSpan} (h : SpanOk sp) : sp.bitLength ≤ 255 := by
  rcases spanOk_iff.1 h with ⟨b, rfl, -⟩ | ⟨a, e, rfl, hae, -, he⟩
  · simp
  · rw [BitSpan.bitLength_ofRange hae]
    omega

theorem BitSpan.one_le_bitLength (sp : BitSpan) : 1 ≤ sp.bitLength := by
  simp [BitSpan.bitLength]

/-- The ceiling of `bit_length / 8` by its two inequalities (10_state.md R17). -/
theorem BitSpan.byteLength_bounds (sp : BitSpan) :
    8 * (sp.byteLength - 1) < sp.bitLength ∧ sp.bitLength ≤ 8 * sp.byteLength := by
  have hpos := sp.one_le_bitLength
  unfold BitSpan.byteLength
  omega

/-- Settles O15: both forms by their equations, the bounds from those of `bit_length`. -/
theorem spanDerivedProperties : Obligations.SpanDerivedProperties := by
  refine ⟨fun a e h => ⟨rfl, rfl, BitSpan.bitLength_ofRange h⟩, fun b => ⟨rfl, rfl, by simp⟩, fun sp h => ?_,
    fun b _ => ?_⟩
  · obtain ⟨hlow, hhigh⟩ := sp.byteLength_bounds
    have hpos := sp.one_le_bitLength
    have hmax := bitLength_le_255 h
    exact ⟨rfl, hlow, hhigh, hpos, hmax, by omega, by omega⟩
  · have hlen : (BitSpan.ofSingle b).bitLength = (BitSpan.ofRange b (b + 1)).bitLength := by
      rw [BitSpan.bitLength_ofSingle, BitSpan.bitLength_ofRange (Nat.lt_succ_self b)]
      omega
    exact ⟨rfl, by simp, hlen, BitSpan.byteLength_congr hlen⟩

end Sys2Proof
end

section
/-! What a well-formed configuration is, check by check, and that construction refuses every other
(10_state.md R19; 41_value_codec.md R68; 60_exceptions.md R97). -/

namespace Sys2Proof

open Machine

theorem widthAdmitted_iff {widths : List Nat} {w : Nat} :
    widthAdmitted widths w = true ↔ 1 ≤ w / 8 ∧ w = 8 * (w / 8) ∧ w ∈ widths := by
  have hwhole : (0 < w ∧ w % 8 = 0) ↔ (1 ≤ w / 8 ∧ w = 8 * (w / 8)) := by omega
  simp only [widthAdmitted, Bool.and_eq_true, decide_eq_true_eq, List.contains_iff_mem]
  rw [hwhole, and_assoc]

/-- The types of R68: `Bool`, and the two unsigned ones at an admitted width. -/
theorem ValueType.admitted_iff {widths : List Nat} {ty : ValueType} :
    ty.admitted widths = true ↔ ty = .bool ∨ ∃ w, IsUnsigned ty w ∧ widthAdmitted widths w = true := by
  cases ty with
  | uint w => simp [ValueType.admitted, IsUnsigned]
  | bool => simp [ValueType.admitted]
  | wrapped order w => cases order <;> simp [ValueType.admitted, IsUnsigned]
  | unlisted name => simp [ValueType.admitted]

theorem FieldDescriptor.check_eq_none {widths : List Nat} {d : FieldDescriptor} :
    d.check widths = none ↔ SpanOk d.span ∧ d.valueType.admitted widths = true := by
  unfold FieldDescriptor.check
  split_ifs with hshape horder hwidth htype
  · simp [SpanOk, hshape]
  · simp [SpanOk, horder]
  · simp [SpanOk, hwidth]
  · simp [htype]
  · simp_all [SpanOk]

theorem checkDescriptors_eq_none {widths : List Nat} {f : Nat} {ds : List FieldDescriptor} :
    checkDescriptors widths f ds = none ↔ ∀ d ∈ ds, d.check widths = none := by
  induction ds generalizing f with
  | nil => simp [checkDescriptors]
  | cons d ds ih =>
    cases hd : d.check widths with
    | some c => simp [checkDescriptors, hd]
    | none => simp [checkDescriptors, hd, ih]

/-- WF1 to WF4 of every descriptor, and WF5 (10_state.md R19). -/
theorem Config.wellFormed_iff {cfg : Config} :
    cfg.WellFormed ↔
      (∀ d ∈ cfg.desc, SpanOk d.span ∧ d.valueType.admitted cfg.uintWidths = true) ∧ cfg.desc.length ≤ 4096 := by
  have hds : checkDescriptors cfg.uintWidths 0 cfg.desc = none ↔
      ∀ d ∈ cfg.desc, SpanOk d.span ∧ d.valueType.admitted cfg.uintWidths = true := by
    simp only [checkDescriptors_eq_none, FieldDescriptor.check_eq_none]
  rw [← hds]
  unfold Config.WellFormed Config.check
  cases checkDescriptors cfg.uintWidths 0 cfg.desc <;> simp

theorem Config.WellFormed.spanOk {cfg : Config} (h : cfg.WellFormed) {d : FieldDescriptor} (hd : d ∈ cfg.desc) :
    SpanOk d.span :=
  ((Config.wellFormed_iff.1 h).1 d hd).1

theorem construct_of_wellFormed {cfg : Config} (h : cfg.WellFormed) : construct cfg = .next (.powerOn cfg) := by
  simp only [construct, show cfg.check = none from h]

theorem construct_of_check {cfg : Config} {c : ConfigCheck} {d : Option Nat} (h : cfg.check = some (c, d)) :
    construct cfg = .refused (.config c d) := by
  simp only [construct, h]

theorem construct_eq_next {cfg : Config} {s : State} (h : construct cfg = .next s) :
    cfg.WellFormed ∧ s = .powerOn cfg := by
  cases hc : cfg.check with
  | some e => rw [construct_of_check hc] at h; cases h
  | none => rw [construct_of_wellFormed hc] at h; cases h; exact ⟨hc, rfl⟩

/-- Settles O20: each check by its own equivalence, the refusal by the check that fails. -/
theorem wellFormedIsTheFiveChecks : Obligations.WellFormedIsTheFiveChecks := by
  refine fun cfg => ⟨?_, construct_of_wellFormed, fun h => ?_⟩
  · simp only [Config.wellFormed_iff, spanOk_iff, ValueType.admitted_iff, widthAdmitted_iff]
  · obtain ⟨⟨c, d⟩, hc⟩ := Option.ne_none_iff_exists'.1 h
    exact ⟨c, d, construct_of_check hc⟩

end Sys2Proof
end

section
/-! The register size is that of the greatest last bit, so every span lies inside the buffer (10_state.md R18;
20_memory.md R36, R38). -/

namespace Sys2Proof

open Machine

theorem lastBit_le_maxLastBit {ds : List FieldDescriptor} {d : FieldDescriptor} (h : d ∈ ds) :
    d.span.lastBit ≤ maxLastBit ds := by
  induction ds with
  | nil => cases h
  | cons e ds ih =>
    rw [maxLastBit]
    rcases List.mem_cons.1 h with rfl | hd
    · exact Nat.le_max_left _ _
    · exact Nat.le_trans (ih hd) (Nat.le_max_right _ _)

theorem exists_lastBit_eq_maxLastBit {ds : List FieldDescriptor} (h : ds ≠ []) :
    ∃ d ∈ ds, d.span.lastBit = maxLastBit ds := by
  induction ds with
  | nil => exact absurd rfl h
  | cons e ds ih =>
    rw [maxLastBit]
    by_cases hle : maxLastBit ds ≤ e.span.lastBit
    · exact ⟨e, List.mem_cons_self, (Nat.max_eq_left hle).symm⟩
    · have hne : ds ≠ [] := by
        rintro rfl
        exact hle (Nat.zero_le _)
      obtain ⟨d, hd, heq⟩ := ih hne
      exact ⟨d, List.mem_cons_of_mem _ hd, by omega⟩

theorem Config.size_of_desc_nil {cfg : Config} (h : cfg.desc = []) : cfg.size = 0 := by
  simp [Config.size, h]

theorem Config.size_of_desc_ne_nil {cfg : Config} (h : cfg.desc ≠ []) : cfg.size = maxLastBit cfg.desc / 8 + 1 := by
  unfold Config.size
  cases hd : cfg.desc with
  | nil => exact absurd hd h
  | cons d ds => rfl

theorem Config.exists_size_eq {cfg : Config} (h : cfg.desc ≠ []) :
    ∃ d ∈ cfg.desc, cfg.size = d.span.lastBit / 8 + 1 := by
  obtain ⟨d, hd, heq⟩ := exists_lastBit_eq_maxLastBit h
  exact ⟨d, hd, by rw [Config.size_of_desc_ne_nil h, heq]⟩

/-- Whatever the configuration, the last byte of each of its spans is in the buffer (20_memory.md R38). -/
theorem Config.lastByte_lt_size {cfg : Config} {d : FieldDescriptor} (hd : d ∈ cfg.desc) :
    d.span.lastByte < cfg.size := by
  have hmax := lastBit_le_maxLastBit hd
  rw [Config.size_of_desc_ne_nil (List.ne_nil_of_mem hd), BitSpan.lastByte]
  omega

theorem Config.WellFormed.size_le {cfg : Config} (h : cfg.WellFormed) : cfg.size ≤ 32 := by
  by_cases hnil : cfg.desc = []
  · simp [Config.size_of_desc_nil hnil]
  · obtain ⟨d, hd, heq⟩ := Config.exists_size_eq hnil
    have hlast := lastBit_le_255 (h.spanOk hd)
    omega

/-- Settles O16: the greatest last bit is attained and bounds the others, and WF3 bounds it. -/
theorem registerSizeFollowsGreatestLastBit : Obligations.RegisterSizeFollowsGreatestLastBit := by
  refine fun cfg => ⟨Config.size_of_desc_nil, fun hne => ⟨Config.exists_size_eq hne, fun d hd => ?_⟩,
    fun hwf hne => ⟨?_, hwf.size_le⟩, fun d hd => ?_⟩
  · exact Config.lastByte_lt_size hd
  · rw [Config.size_of_desc_ne_nil hne]
    exact Nat.le_add_left _ _
  · have hbyte : d.span.lastBit / 8 < cfg.size := Config.lastByte_lt_size hd
    omega

/-- No segment leaves a buffer of `n` bytes exactly when the last one does not. -/
theorem BitSpan.firstOutside_eq_none {sp : BitSpan} {n : Nat} :
    sp.firstOutside n = none ↔ sp.firstByte + sp.touched ≤ n := by
  have hidx : sp.firstOutside n = none ↔ ∀ k, k < sp.touched → sp.firstByte + k < n := by
    simp only [BitSpan.firstOutside, BitSpan.segments, Option.map_eq_none_iff, List.find?_eq_none, List.forall_mem_map,
      List.mem_range, decide_eq_true_eq, Nat.not_le]
    rfl
  rw [hidx]
  constructor
  · intro h
    have hlast := h (sp.touched - 1) (by simp [BitSpan.touched])
    omega
  · intro h k hk
    omega

end Sys2Proof
end

section
/-! What no operation and no step writes: the configuration, the requests, and a mark that is set (10_state.md R15, R21;
60_exceptions.md R101; 20_memory.md R43). -/

namespace Sys2Proof.Machine

theorem exec_cfg {i : Instr} {s t : State} (h : exec i s = .next t) : t.cfg = s.cfg := by
  rcases exec_cases h with ⟨r, -, -, rfl⟩ | ⟨o, rfl⟩ | ⟨a, bs, rfl, -⟩ <;> rfl

theorem exec_requests {i : Instr} {s t : State} (h : exec i s = .next t) : t.requests = s.requests := by
  rcases exec_cases h with ⟨r, -, -, rfl⟩ | ⟨o, rfl⟩ | ⟨a, bs, rfl, -⟩ <;> rfl

/-- Settles O53: a refusal sets the mark, and the two ways to complete leave it as it is. -/
theorem noOperationClearsTheMark : Obligations.NoOperationClearsTheMark := by
  intro i s t h hmark
  rcases exec_cases h with ⟨r, -, -, rfl⟩ | ⟨o, rfl⟩ | ⟨a, bs, rfl, -⟩
  · rfl
  · rwa [State.respond_refused]
  · rwa [State.store_refused]

/-- Settles O54: by what a step can do, the queue shortened only by taking its head. -/
theorem configurationIsFixedAndRequestsInOrder : Obligations.ConfigurationIsFixedAndRequestsInOrder := by
  intro s t h
  obtain ⟨-, -, ⟨hq, rfl⟩ | ⟨r, rest, hq, ⟨e, -, rfl⟩ | ⟨i, -, hx⟩⟩⟩ := step_cases h
  · simp [hq]
  · simp [hq]
  · simp [exec_cfg hx, exec_requests hx, hq]

end Sys2Proof.Machine
end

section
/-! Power-on and DEFAULT (10_state.md R29; 43_register_ops.md R90). -/

namespace Sys2Proof.Machine

theorem Memory.wf_nil : Memory.wf [] := ⟨.nil, fun _ h => nomatch h⟩

theorem Memory.below_nil (n : Nat) : Memory.below [] n := fun _ h => nomatch h

theorem Memory.read_writeBytes_replicate_zero (m : Memory) (n i : Nat) :
    (m.writeBytes 0 (List.replicate n 0#8)).read i = if i < n then 0#8 else m.read i := by
  rw [Memory.read_writeBytes]
  by_cases hi : i < n <;> simp [hi]

/-- Zeros over all `n` bytes of a canonical memory that lists nothing else leave the empty list. -/
theorem Memory.writeBytes_replicate_zero {m : Memory} {n : Nat} (hwf : m.wf) (hbelow : m.below n) :
    m.writeBytes 0 (List.replicate n 0#8) = [] := by
  refine Memory.ext_of_wf (Memory.wf_writeBytes 0 _ hwf) Memory.wf_nil fun i => ?_
  rw [Memory.read_writeBytes_replicate_zero, Memory.read_nil]
  split
  · rfl
  · exact Memory.read_eq_zero_of_below hbelow (Nat.le_of_not_lt ‹_›)

theorem exec_default (s : State) :
    exec .default s = .next (s.store (s.buf.writeBytes 0 (List.replicate s.size 0#8))) := rfl

/-- Settles O40: canonical memories that read alike are equal, so the zeroed buffer is the empty one of power-on. -/
theorem defaultRestoresThePowerOnBuffer : Obligations.DefaultRestoresThePowerOnBuffer := by
  intro s hs
  rw [exec_default, Memory.writeBytes_replicate_zero hs.canonical hs.inside]
  rfl

/-- Settles O45: power-on lists no byte, and DEFAULT writes zero to each of the `S`. -/
theorem resetAndDefaultValues : Obligations.ResetAndDefaultValues := by
  refine ⟨fun cfg hwf => ⟨_, construct_of_wellFormed hwf, rfl, fun i => rfl, rfl⟩, fun s t h => ?_⟩
  rw [exec_default] at h
  cases h
  refine ⟨fun i hi => ?_, rfl⟩
  rw [State.store_buf, Memory.read_writeBytes_replicate_zero, if_pos hi]

theorem State.powerOn_inv {cfg : Config} (h : cfg.WellFormed) : (State.powerOn cfg).Inv where
  config := h
  canonical := Memory.wf_nil
  inside := Memory.below_nil _
  marked := rfl
  recorded := by simp
  silent := by simp

/-- Settles O59: construction gives the power-on state of a well-formed configuration, and configuration P is one. -/
theorem powerOnMeetsTheInvariant : Obligations.PowerOnMeetsTheInvariant := by
  refine ⟨fun cfg s h => ?_, State.powerOn_inv (by decide)⟩
  obtain ⟨hwf, rfl⟩ := construct_eq_next h
  exact State.powerOn_inv hwf

end Sys2Proof.Machine
end

section
/-! The invariant of the block's state is kept by every step (10_state.md R19, R20; 60_exceptions.md R96, R97). -/

namespace Sys2Proof

/-- A word of format Z is refused for its reserved field only (30_encoding.md R54 (b)). -/
theorem decodeZ_eq_error {w : Word} {i : Instr} {e : Reason} (h : decodeZ w i = .error e) : e = .reservedBits w := by
  unfold decodeZ at h
  split at h
  · cases h
  · cases h; rfl

/-- Decoding refuses a word for its opcode or its reserved bits only (30_encoding.md R53, R54). -/
theorem decode_eq_error {w : Word} {e : Reason} (h : decode w = .error e) :
    e = .reservedOp w ∨ e = .reservedBits w := by
  unfold decode at h
  split at h
  case h_1 =>
    split at h
    · cases h
    · cases h; exact .inr rfl
  case h_2 | h_3 => cases h
  case h_4 | h_5 | h_6 | h_7 => exact .inr (decodeZ_eq_error h)
  case h_8 => cases h; exact .inl rfl

theorem decode_error_code {w : Word} {e : Reason} (h : decode w = .error e) : 1 ≤ e.code ∧ e.code ≤ 2 := by
  rcases decode_eq_error h with rfl | rfl <;> simp [Reason.code]

namespace Machine

variable {s t : State}

/-! ### Each way an operation ends keeps the invariant -/

theorem State.Inv.take (h : s.Inv) (r : Request) (rest : List Request) : (s.take r rest).Inv where
  config := h.config
  canonical := h.canonical
  inside := h.inside
  marked := h.marked
  recorded := h.recorded
  silent := h.silent

theorem State.Inv.refuse (h : s.Inv) {r : Reason} (hr : r.code ≤ 6) : (s.refuse r).Inv where
  config := h.config
  canonical := h.canonical
  inside := h.inside
  marked := rfl
  recorded := by rintro _ ⟨⟩; exact hr
  silent _ := rfl

/-- Only a block whose mark is clear drives data-out (60_exceptions.md R97). -/
theorem State.Inv.respond (h : s.Inv) (hmark : s.refused = false) (o : Option DataOut) : (s.respond o).Inv where
  config := h.config
  canonical := h.canonical
  inside := h.inside
  marked := h.marked
  recorded := h.recorded
  silent := by simp [hmark]

theorem State.Inv.store (h : s.Inv) {m : Memory} (hwf : m.wf) (hbelow : m.below s.size) : (s.store m).Inv where
  config := h.config
  canonical := hwf
  inside := hbelow
  marked := h.marked
  recorded := h.recorded
  silent _ := rfl

theorem State.Inv.store_writeBytes (h : s.Inv) {a : Nat} {bs : List Byte} (hin : a + bs.length ≤ s.size) :
    (s.store (s.buf.writeBytes a bs)).Inv :=
  h.store (Memory.wf_writeBytes a bs h.canonical) (Memory.below_writeBytes bs h.inside hin)

/-! ### Every operation, every step -/

theorem exec_keeps_inv {i : Instr} (h : s.Inv) (hmark : s.refused = false) (hx : exec i s = .next t) : t.Inv := by
  rcases exec_cases hx with ⟨r, -, hr, rfl⟩ | ⟨o, rfl⟩ | ⟨a, bs, rfl, hw⟩
  · exact h.refuse hr
  · exact h.respond hmark _
  · refine h.store_writeBytes ?_
    rcases hw with ⟨-, rfl, rfl⟩ | ⟨-, rfl, hlen⟩ | ⟨f, d, -, -, ho, rfl, hlen⟩
    · simp
    · omega
    · rw [hlen]
      exact BitSpan.firstOutside_eq_none.1 ho

/-- Settles O58: by what a step can do; the operation runs from the state that has taken the request. -/
theorem stepKeepsTheInvariant : Obligations.StepKeepsTheInvariant := by
  intro s t hs h
  obtain ⟨-, hmark, ⟨-, rfl⟩ | ⟨r, rest, -, ⟨e, he, rfl⟩ | ⟨i, -, hx⟩⟩⟩ := step_cases h
  · exact hs
  · have hcode := (decode_error_code he).2
    exact (hs.take r rest).refuse (by omega)
  · exact exec_keeps_inv (hs.take r rest) hmark hx

end Machine
end Sys2Proof
end

section
/-! The segments of a span, one per touched byte, and the bytes an access reaches (20_memory.md R36, R37, R38). -/

namespace Sys2Proof

open Machine

/-! ### Touched bytes -/

theorem firstByte_le_lastByte {sp : BitSpan} (h : SpanOk sp) : sp.firstByte ≤ sp.lastByte :=
  Nat.div_le_div_right (firstBit_le_lastBit h)

theorem firstByte_add_touched {sp : BitSpan} (h : SpanOk sp) : sp.firstByte + sp.touched = sp.lastByte + 1 := by
  have hle := firstByte_le_lastByte h
  rw [BitSpan.touched]
  omega

theorem firstBit_add_bitLength {sp : BitSpan} (h : SpanOk sp) : sp.firstBit + sp.bitLength = sp.lastBit + 1 := by
  have hle := firstBit_le_lastBit h
  rw [BitSpan.bitLength]
  omega

/-- `T` is the ceiling of `(o + bit_length) / 8` (20_memory.md R37). -/
theorem touched_eq_ceil {sp : BitSpan} (h : SpanOk sp) : sp.touched = (sp.firstBit % 8 + sp.bitLength + 7) / 8 := by
  have hlen := firstBit_add_bitLength h
  have htouched := firstByte_add_touched h
  simp only [BitSpan.firstByte, BitSpan.lastByte] at htouched
  omega

/-- Settles O18: an offset below 8 adds at most one byte to the ceiling that is `N`. -/
theorem touchedByteCount : Obligations.TouchedByteCount := by
  refine ⟨fun sp h => ?_, rfl, rfl, rfl⟩
  have hceil := touched_eq_ceil h
  have hbyte : sp.byteLength = (sp.bitLength + 7) / 8 := rfl
  refine ⟨hceil, ?_, ?_⟩ <;> omega

/-! ### Segments -/

theorem BitSpan.length_segments (sp : BitSpan) : sp.segments.length = sp.touched := by
  simp [BitSpan.segments]

theorem BitSpan.getElem?_segments {sp : BitSpan} {k : Nat} {g : Segment} :
    sp.segments[k]? = some g ↔ k < sp.touched ∧ sp.segment k = g := by
  simp [BitSpan.segments, List.getElem?_eq_some_iff]

theorem BitSpan.mem_segments {sp : BitSpan} {g : Segment} :
    g ∈ sp.segments ↔ ∃ k, k < sp.touched ∧ sp.segment k = g := by
  simp [BitSpan.segments]

theorem BitSpan.segment_idx (sp : BitSpan) (k : Nat) : (sp.segment k).idx = sp.firstByte + k := rfl

theorem BitSpan.segment_hi_le (sp : BitSpan) (k : Nat) : (sp.segment k).hi ≤ 8 := by
  simp only [BitSpan.segment]
  split <;> omega

/-- Only the first touched byte has bits below the span: every later one begins after `first_bit`. -/
theorem BitSpan.segment_lo_le_iff (sp : BitSpan) (k p : Nat) :
    (sp.segment k).lo ≤ p ↔ sp.firstBit ≤ 8 * (sp.firstByte + k) + p := by
  simp only [BitSpan.segment, BitSpan.offset, BitSpan.firstByte]
  split <;> omega

/-- Only the last touched byte has bits above the span: every earlier one ends before `last_bit`. -/
theorem lt_segment_hi_iff {sp : BitSpan} {k p : Nat} (h : SpanOk sp) (hk : k < sp.touched) (hp : p < 8) :
    p < (sp.segment k).hi ↔ 8 * (sp.firstByte + k) + p ≤ sp.lastBit := by
  have htouched := firstByte_add_touched h
  have hlast : sp.lastByte = sp.lastBit / 8 := rfl
  simp only [BitSpan.segment]
  split <;> omega

/-- Bit `p` of the `k`-th touched byte is in the segment exactly when its absolute position is in the span. -/
theorem segment_covers_iff {sp : BitSpan} {k p : Nat} (h : SpanOk sp) (hk : k < sp.touched) (hp : p < 8) :
    (sp.segment k).lo ≤ p ∧ p < (sp.segment k).hi ↔
      sp.firstBit ≤ 8 * (sp.firstByte + k) + p ∧ 8 * (sp.firstByte + k) + p ≤ sp.lastBit :=
  and_congr (sp.segment_lo_le_iff k p) (lt_segment_hi_iff h hk hp)

theorem segment_lo_lt_hi {sp : BitSpan} {k : Nat} (h : SpanOk sp) (hk : k < sp.touched) :
    (sp.segment k).lo < (sp.segment k).hi := by
  have hle := firstBit_le_lastBit h
  have htouched := firstByte_add_touched h
  have hfirst : sp.firstByte = sp.firstBit / 8 := rfl
  have hlast : sp.lastByte = sp.lastBit / 8 := rfl
  have hlo : (sp.segment k).lo = if k = 0 then sp.firstBit % 8 else 0 := rfl
  have hin : (sp.segment k).lo < 8 ∧ 8 * (sp.firstByte + k) + (sp.segment k).lo ≤ sp.lastBit := by
    split at hlo <;> omega
  exact (lt_segment_hi_iff h hk hin.1).2 hin.2

/-- Segment `b / 8 - first_byte` is the one that holds bit `b` (20_memory.md R36). -/
theorem mem_span_iff_segment {sp : BitSpan} (h : SpanOk sp) (b : Nat) :
    sp.firstBit ≤ b ∧ b ≤ sp.lastBit ↔ ∃ g ∈ sp.segments, g.idx = b / 8 ∧ g.lo ≤ b % 8 ∧ b % 8 < g.hi := by
  have hmod : b % 8 < 8 := Nat.mod_lt b (by decide)
  constructor
  · rintro ⟨hfirst, hlast⟩
    have hlow : sp.firstByte ≤ b / 8 := Nat.div_le_div_right hfirst
    have hhigh : b / 8 ≤ sp.lastByte := Nat.div_le_div_right hlast
    have htouched := firstByte_add_touched h
    have hk : b / 8 - sp.firstByte < sp.touched := by omega
    refine ⟨_, BitSpan.mem_segments.2 ⟨_, hk, rfl⟩, ?_, (segment_covers_iff h hk hmod).2 ?_⟩
    · rw [BitSpan.segment_idx]
      omega
    · omega
  · rintro ⟨g, hg, hidx, hin⟩
    obtain ⟨k, hk, rfl⟩ := BitSpan.mem_segments.1 hg
    have hcover := (segment_covers_iff h hk hmod).1 hin
    rw [BitSpan.segment_idx] at hidx
    omega

/-- Settles O17: the `k`-th segment lies in byte `first_byte + k` and covers what the span has there. -/
theorem segmentsPartitionTheSpan : Obligations.SegmentsPartitionTheSpan := by
  refine fun sp h => ⟨sp.length_segments, fun k g hg => ?_, fun k k' g g' hg hg' hne => ?_, mem_span_iff_segment h⟩
  · obtain ⟨hk, rfl⟩ := BitSpan.getElem?_segments.1 hg
    exact ⟨rfl, segment_lo_lt_hi h hk, sp.segment_hi_le k⟩
  · obtain ⟨-, rfl⟩ := BitSpan.getElem?_segments.1 hg
    obtain ⟨-, rfl⟩ := BitSpan.getElem?_segments.1 hg'
    rw [BitSpan.segment_idx, BitSpan.segment_idx]
    omega

/-! ### Accesses inside the buffer -/

theorem segment_idx_le_lastByte {sp : BitSpan} (h : SpanOk sp) : ∀ g ∈ sp.segments, g.idx ≤ sp.lastByte := by
  intro g hg
  obtain ⟨k, hk, rfl⟩ := BitSpan.mem_segments.1 hg
  have htouched := firstByte_add_touched h
  rw [BitSpan.segment_idx]
  omega

/-- The `i`-th read helper of GET begins and ends inside the span (42_field_access.md R77). -/
theorem readHelper_inside_span {sp : BitSpan} {i : Nat} (h : SpanOk sp) (hi : i < sp.byteLength) :
    sp.firstBit + 8 * i ≤ sp.lastBit ∧ sp.firstBit + 8 * i + min 8 (sp.bitLength - 8 * i) - 1 ≤ sp.lastBit := by
  have hlen := firstBit_add_bitLength h
  have hbytes := sp.byteLength_bounds
  omega

/-- Settles O19: every access is bounded by the span's last byte, which is in the buffer. -/
theorem accessesStayInsideTheBuffer : Obligations.AccessesStayInsideTheBuffer := by
  intro cfg d hwf hd
  have hok := hwf.spanOk hd
  have hlast := Config.lastByte_lt_size hd
  refine ⟨fun g hg => ?_, fun i hi => ?_, hlast⟩
  · have hidx := segment_idx_le_lastByte hok g hg
    exact ⟨hidx, Nat.lt_of_le_of_lt hidx hlast⟩
  · obtain ⟨hbegin, hend⟩ := readHelper_inside_span hok hi
    exact ⟨Nat.div_le_div_right hbegin, Nat.div_le_div_right hend⟩

theorem Config.WellFormed.firstOutside_eq_none {cfg : Config} (h : cfg.WellFormed) {d : FieldDescriptor}
    (hd : d ∈ cfg.desc) : d.span.firstOutside cfg.size = none := by
  rw [BitSpan.firstOutside_eq_none, firstByte_add_touched (h.spanOk hd)]
  exact Config.lastByte_lt_size hd

end Sys2Proof
end

section
/-! Every operation of a well-formed block ends in a next state, so no step faults (20_memory.md R38; 60_exceptions.md
R95). -/

namespace Sys2Proof.Machine

variable {s : State} {f : Nat}

/-! ### GET and SET of a field that exists -/

theorem State.withField_of_getElem? {d : FieldDescriptor} (hwf : s.cfg.WellFormed) (hd : s.cfg.desc[f]? = some d)
    (use : FieldDescriptor → Result) : s.withField f use = use d := by
  have ho : d.span.firstOutside s.size = none := hwf.firstOutside_eq_none (List.mem_of_getElem? hd)
  simp only [State.withField, hd, ho]

theorem exec_get_of_decode {d : FieldDescriptor} {v : Value} (hwf : s.cfg.WellFormed) (hd : s.cfg.desc[f]? = some d)
    (hv : decodeValue d.valueType (valueArray s.buf d.span) = some v) :
    exec (.get f) s = .next (s.respond (some (.value v))) := by
  rw [exec, execGet, State.withField_of_getElem? hwf hd]
  simp only [getField, hv]

theorem exec_set_of_operand {d : FieldDescriptor} {v : Value} (hwf : s.cfg.WellFormed) (hd : s.cfg.desc[f]? = some d)
    (hv : s.valueOperand d.valueType = some v) :
    exec (.set f) s = .next (s.store (writeField s.buf d.span (encodeValue d.span.byteLength v))) := by
  rw [exec, execSet, State.withField_of_getElem? hwf hd]
  simp only [setField, hv]

theorem exec_set_of_no_operand {d : FieldDescriptor} (hwf : s.cfg.WellFormed) (hd : s.cfg.desc[f]? = some d)
    (hv : s.valueOperand d.valueType = none) :
    exec (.set f) s = .next (s.refuse (.valueType f s.dataIn)) := by
  rw [exec, execSet, State.withField_of_getElem? hwf hd]
  simp only [setField, hv]

theorem State.withField_of_none (hd : s.cfg.desc[f]? = none) (use : FieldDescriptor → Result) :
    s.withField f use = .next (s.refuse (.fieldIndex f)) := by
  simp only [State.withField, hd]

/-! ### The codec is total on the admitted types -/

theorem decodeValue_of_isUnsigned {ty : ValueType} {w : Nat} (h : IsUnsigned ty w) (va : List Byte) :
    decodeValue ty va = some (.uint (leValue va % 2 ^ w)) := by
  rcases h with rfl | rfl <;> rfl

theorem exists_decodeValue_of_admitted {widths : List Nat} {ty : ValueType} (h : ty.admitted widths = true)
    (va : List Byte) : ∃ v, decodeValue ty va = some v := by
  rcases ValueType.admitted_iff.1 h with rfl | ⟨w, hw, -⟩
  · exact ⟨_, rfl⟩
  · exact ⟨_, decodeValue_of_isUnsigned hw va⟩

/-! ### Every operation, every step -/

theorem exec_get_completes (hwf : s.cfg.WellFormed) : Completes (exec (.get f) s) := by
  cases hd : s.cfg.desc[f]? with
  | none => exact ⟨_, State.withField_of_none hd _⟩
  | some d =>
    have hty := ((Config.wellFormed_iff.1 hwf).1 d (List.mem_of_getElem? hd)).2
    obtain ⟨v, hv⟩ := exists_decodeValue_of_admitted hty (valueArray s.buf d.span)
    exact ⟨_, exec_get_of_decode hwf hd hv⟩

theorem exec_set_completes (hwf : s.cfg.WellFormed) : Completes (exec (.set f) s) := by
  cases hd : s.cfg.desc[f]? with
  | none => exact ⟨_, State.withField_of_none hd _⟩
  | some d =>
    cases hv : s.valueOperand d.valueType with
    | none => exact ⟨_, exec_set_of_no_operand hwf hd hv⟩
    | some v => exact ⟨_, exec_set_of_operand hwf hd hv⟩

theorem exec_completes (hwf : s.cfg.WellFormed) (i : Instr) : Completes (exec i s) := by
  cases i with
  | fillMask lo hi =>
    rcases execFillMask_cases lo hi s with ⟨-, h⟩ | ⟨-, -, h⟩ <;> exact ⟨_, h⟩
  | get f => exact exec_get_completes hwf
  | set f => exact exec_set_completes hwf
  | fromBuf =>
    rcases execFromBuf_cases s with ⟨g, h⟩ | ⟨bs, -, -, h⟩ <;> exact ⟨_, h⟩
  | default | data | clone => exact ⟨_, rfl⟩

theorem Completes.noFault {o : Result} (h : Completes o) : NoFault o := by
  obtain ⟨t, rfl⟩ := h
  exact fun e => nofun

/-- Only a well-formed block comes to run an operation (60_exceptions.md R98). -/
theorem wellFormed_of_fetch_run {t : State} {i : Instr} (h : fetch s = .run i t) : t.cfg.WellFormed := by
  unfold fetch at h
  split at h
  case h_1 => cases h
  case h_2 hwf =>
    split at h
    · cases h
    · split at h
      case h_1 => cases h
      case h_2 =>
        split at h
        case h_1 => cases h; exact hwf
        case h_2 => cases h

/-- Settles O56: the one way a step could fault is an operation, and it runs on a well-formed block. -/
theorem noStepFaults : Obligations.NoStepFaults := by
  intro s
  cases hf : fetch s with
  | run i t =>
    rw [step_of_fetch_run hf]
    exact (exec_completes (wellFormed_of_fetch_run hf) i).noFault
  | stop r => simp [NoFault, step, hf]
  | idle => simp [NoFault, step, hf]
  | reject r t => simp [NoFault, step, hf]

end Sys2Proof.Machine
end

section
/-! The mask and shift engine bit by bit: which bits each byte helper reads, places and keeps (40_mask_engine.md). -/

namespace Sys2Proof.Machine

/-! ### Masks and shifts -/

theorem sum_two_pow_range' (lo n : Nat) : ((List.range' lo n).map (2 ^ ·)).sum = 2 ^ lo * (2 ^ n - 1) := by
  induction n generalizing lo with
  | zero => simp
  | succ n ih =>
    have hpos : 1 ≤ 2 ^ n := Nat.one_le_two_pow
    calc ((List.range' lo (n + 1)).map (2 ^ ·)).sum
        = 2 ^ lo + 2 ^ (lo + 1) * (2 ^ n - 1) := by rw [List.range'_succ, List.map_cons, List.sum_cons, ih]
      _ = 2 ^ lo * (1 + 2 * (2 ^ n - 1)) := by ring
      _ = 2 ^ lo * (2 ^ (n + 1) - 1) := by
        congr 1
        omega

/-- The byte whose bits `from .. to-1` are 1 (40_mask_engine.md R59). -/
theorem getLsbD_fillMask {lo hi i : Nat} (hhi : hi ≤ 8) :
    (fillMask lo hi).getLsbD i = decide (lo ≤ i ∧ i < hi) := by
  rw [fillMask, sum_two_pow_range', BitVec.getLsbD_ofNat, Nat.testBit_two_pow_mul, Nat.testBit_two_pow_sub_one]
  simp only [← Bool.decide_and, decide_eq_decide]
  omega

theorem getLsbD_shl8 (x : Byte) {n i : Nat} (hi : i < 8) :
    (shl8 x n).getLsbD i = (decide (n ≤ i) && x.getLsbD (i - n)) := by
  have hge : (!decide (i < n)) = decide (n ≤ i) := by rw [← decide_not, decide_eq_decide, Nat.not_lt]
  rw [shl8, BitVec.getLsbD_shiftLeft, hge, decide_eq_true hi, Bool.true_and]

theorem getLsbD_shr8 (x : Byte) (n i : Nat) : (shr8 x n).getLsbD i = x.getLsbD (n + i) := by
  simp [shr8]

/-- `merge_byte` takes the bits of `raw` under the mask and keeps those of `old` elsewhere (40_mask_engine.md R67). -/
theorem getLsbD_mergeByte (old raw mask : Byte) {i : Nat} (hi : i < 8) :
    (mergeByte old raw mask).getLsbD i = if mask.getLsbD i = true then raw.getLsbD i else old.getLsbD i := by
  simp only [mergeByte, BitVec.getLsbD_or, BitVec.getLsbD_and, BitVec.getLsbD_not, decide_eq_true hi]
  cases mask.getLsbD i <;> simp

/-! ### Reading a byte of a span -/

theorem Memory.bit_of_byte (m : Memory) {i p : Nat} (hp : p < 8) : m.bit (8 * i + p) = (m.read i).getLsbD p := by
  have hdiv : (8 * i + p) / 8 = i := by omega
  have hmod : (8 * i + p) % 8 = p := by omega
  rw [Memory.bit, hdiv, hmod]

/-- The bit `j` places above `a` is in the byte of `a` or in the next one. -/
theorem Memory.bit_add (m : Memory) (a : Nat) {j : Nat} (hj : j < 8) :
    m.bit (a + j) =
      if a % 8 + j < 8 then (m.read (a / 8)).getLsbD (a % 8 + j) else (m.read (a / 8 + 1)).getLsbD (a % 8 + j - 8) := by
  split
  · have hpos : a + j = 8 * (a / 8) + (a % 8 + j) := by omega
    rw [hpos, Memory.bit_of_byte m ‹_›]
  · have hpos : a + j = 8 * (a / 8 + 1) + (a % 8 + j - 8) := by omega
    rw [hpos, Memory.bit_of_byte m (by omega)]

/-- Bit `j` of `extract_byte(a, len)` is `bufbit(a + j)` below `len`, in each of its cases A, B and C
(40_mask_engine.md R62, R63). -/
theorem getLsbD_extractByte (m : Memory) {a len j : Nat} (hlen : len ≤ 8) (hj : j < 8) :
    (extractByte m a len).getLsbD j = (decide (j < len) && m.bit (a + j)) := by
  have hbit := m.bit_add a hj
  simp only [extractByte]
  split_ifs with hA hB
  · obtain ⟨ho, -⟩ := hA
    rw [BitVec.getLsbD_and, getLsbD_fillMask hlen, hbit, ho]
    simp [hj, Bool.and_comm]
  · obtain ⟨-, hfit⟩ := hB
    rw [getLsbD_shr8, BitVec.getLsbD_and, getLsbD_fillMask hfit, hbit]
    by_cases hjl : j < len
    · have hj8 : a % 8 + j < 8 := by omega
      simp [hjl, hj8]
    · simp [hjl]
  · have hlast : a % 8 + len - 8 ≤ 8 := by omega
    rw [BitVec.getLsbD_or, getLsbD_shr8, BitVec.getLsbD_and, getLsbD_fillMask (Nat.le_refl 8), getLsbD_shl8 _ hj,
      BitVec.getLsbD_and, getLsbD_fillMask hlast, hbit]
    by_cases hj8 : a % 8 + j < 8
    · have hjl : j < len := by omega
      have hlow : ¬ 8 - a % 8 ≤ j := by omega
      simp [hj8, hjl, hlow]
    · have hhigh : 8 - a % 8 ≤ j := by omega
      have hidx : j - (8 - a % 8) = a % 8 + j - 8 := by omega
      have hmask : a % 8 + j - 8 < a % 8 + len - 8 ↔ j < len := by omega
      simp [hj8, hhigh, hidx, hmask, Bool.and_comm]

/-! ### Placing a value's bits -/

theorem valueBit_natCast (va : List Byte) (j : Nat) : valueBit va j = (va.getD (j / 8) 0#8).getLsbD (j % 8) := rfl

theorem valueBit_of_neg (va : List Byte) {j : Int} (hj : j < 0) : valueBit va j = false := by
  cases j with
  | ofNat j => exact absurd hj (by simp)
  | negSucc j => rfl

/-- Bit `p` of `raw_byte(va, o, k)` is value bit `8*k + p - o` (40_mask_engine.md R65). -/
theorem getLsbD_rawByte (va : List Byte) {o k p : Nat} (ho : o < 8) (hp : p < 8) :
    (rawByte va o k).getLsbD p = valueBit va (8 * (k : Int) + p - o) := by
  rw [rawByte, BitVec.getLsbD_or, getLsbD_shl8 _ hp, getLsbD_shr8]
  by_cases hop : o ≤ p
  · have hj : 8 * (k : Int) + p - o = ((8 * k + (p - o) : Nat) : Int) := by omega
    have hdiv : (8 * k + (p - o)) / 8 = k := by omega
    have hmod : (8 * k + (p - o)) % 8 = p - o := by omega
    rw [hj, valueBit_natCast, hdiv, hmod, decide_eq_true hop, BitVec.getLsbD_of_ge _ (8 - o + p) (by omega),
      Bool.true_and, Bool.or_false]
    rfl
  · rw [decide_eq_false hop, Bool.false_and, Bool.false_or]
    cases k with
    | zero =>
      rw [valueBit_of_neg va (by omega)]
      exact BitVec.getLsbD_zero
    | succ k =>
      have hj : 8 * ((k + 1 : Nat) : Int) + p - o = ((8 * k + (8 - o + p) : Nat) : Int) := by omega
      have hdiv : (8 * k + (8 - o + p)) / 8 = k := by omega
      have hmod : (8 * k + (8 - o + p)) % 8 = 8 - o + p := by omega
      have hprev : ((k + 1 : Nat) : Int) - 1 = k := by omega
      rw [hj, valueBit_natCast, hdiv, hmod, hprev]
      rfl

/-- In a span, the value bit of a byte's bit is its distance from `first_bit` (40_mask_engine.md R65). -/
theorem getLsbD_rawByte_span (va : List Byte) (sp : BitSpan) {k p : Nat} (hp : p < 8) :
    (rawByte va sp.offset k).getLsbD p =
      valueBit va (8 * ((sp.firstByte + k : Nat) : Int) + p - (sp.firstBit : Int)) := by
  have hoffset : sp.offset < 8 := Nat.mod_lt _ (by decide)
  have hpos : 8 * sp.firstByte + sp.offset = sp.firstBit := Nat.div_add_mod _ 8
  have hplace : 8 * (k : Int) + p - sp.offset = 8 * ((sp.firstByte + k : Nat) : Int) + p - sp.firstBit := by omega
  rw [getLsbD_rawByte va hoffset hp, hplace]

/-- `write_mask(k)` has the bits of the `k`-th touched byte that lie inside the span (40_mask_engine.md R66). -/
theorem getLsbD_writeMask {sp : BitSpan} {k p : Nat} (h : SpanOk sp) (hk : k < sp.touched) (hp : p < 8) :
    (writeMask sp k).getLsbD p =
      decide (sp.firstBit ≤ 8 * (sp.firstByte + k) + p ∧ 8 * (sp.firstByte + k) + p ≤ sp.lastBit) := by
  rw [writeMask, getLsbD_fillMask (sp.segment_hi_le k), decide_eq_decide]
  exact segment_covers_iff h hk hp

end Sys2Proof.Machine
end

section
/-! The bits of a value array as a number, of a field read from the buffer and of a field written to it
(41_value_codec.md R70, R71; 42_field_access.md R78, R83), and what an inner field reads (20_memory.md R35). -/

namespace Sys2Proof.Machine

/-! ### Little-endian values -/

theorem testBit_leValue (va : List Byte) (j : Nat) : (leValue va).testBit j = valueBit va j := by
  rw [valueBit_natCast]
  induction va generalizing j with
  | nil => simp [leValue]
  | cons b bs ih =>
    have hb : b.toNat < 2 ^ 8 := b.isLt
    rw [leValue, Nat.add_comm, Nat.testBit_two_pow_mul_add _ hb]
    by_cases hj : j < 8
    · have hdiv : j / 8 = 0 := by omega
      have hmod : j % 8 = j := by omega
      rw [if_pos hj, hdiv, hmod]
      rfl
    · have hdiv : j / 8 = (j - 8) / 8 + 1 := by omega
      have hmod : j % 8 = (j - 8) % 8 := by omega
      rw [if_neg hj, ih, hdiv, hmod, List.getD_cons_succ]

/-- Byte `i` of an encoded value, zero beyond the list (41_value_codec.md R71). -/
theorem getD_leBytes (n v i : Nat) :
    (leBytes n v).getD i 0#8 = if i < n then BitVec.ofNat 8 (v / 2 ^ (8 * i) % 256) else 0#8 := by
  rw [leBytes, List.getD_eq_getElem?_getD, List.getElem?_map]
  split
  · rw [List.getElem?_range ‹_›]
    rfl
  · rw [List.getElem?_eq_none (by simpa using ‹¬ i < n›)]
    rfl

/-- The value bits of an encoded unsigned value are its own, cut off after `n` bytes (41_value_codec.md R71). -/
theorem valueBit_leBytes (n v j : Nat) : valueBit (leBytes n v) j = (decide (j < 8 * n) && v.testBit j) := by
  have hbyte : j / 8 < n ↔ j < 8 * n := by omega
  have hpos : 8 * (j / 8) + j % 8 = j := Nat.div_add_mod j 8
  have hmod : j % 8 < 8 := Nat.mod_lt j (by decide)
  rw [valueBit_natCast, getD_leBytes]
  by_cases hj : j < 8 * n
  · rw [if_pos (hbyte.2 hj), BitVec.getLsbD_ofNat, show 256 = 2 ^ 8 from rfl, Nat.testBit_mod_two_pow,
      Nat.testBit_div_two_pow, Nat.add_comm, hpos]
    simp [hj, hmod]
  · rw [if_neg (hbyte.not.2 hj)]
    simp [hj]

/-! ### The bits read -/

theorem getD_valueArray (m : Memory) (sp : BitSpan) {i : Nat} (hi : i < sp.byteLength) :
    (valueArray m sp).getD i 0#8 = extractByte m (sp.firstBit + 8 * i) (min 8 (sp.bitLength - 8 * i)) := by
  rw [valueArray, List.getD_eq_getElem?_getD, List.getElem?_map, List.getElem?_range hi]
  rfl

theorem length_valueArray (m : Memory) (sp : BitSpan) : (valueArray m sp).length = sp.byteLength := by
  simp [valueArray]

/-- Bit `j` of the value array is `bufbit(first_bit + j)` below `bit_length`, and 0 from there on (42_field_access.md R78). -/
theorem valueBit_valueArray (m : Memory) (sp : BitSpan) (j : Nat) :
    valueBit (valueArray m sp) j = (decide (j < sp.bitLength) && m.bit (sp.firstBit + j)) := by
  have hlen := sp.byteLength_bounds
  have hmod : j % 8 < 8 := Nat.mod_lt j (by decide)
  rw [valueBit_natCast]
  by_cases hj : j / 8 < sp.byteLength
  · have hpos : sp.firstBit + 8 * (j / 8) + j % 8 = sp.firstBit + j := by omega
    have hin : j % 8 < min 8 (sp.bitLength - 8 * (j / 8)) ↔ j < sp.bitLength := by omega
    rw [getD_valueArray m sp hj, getLsbD_extractByte m (Nat.min_le_left _ _) hmod, hpos, decide_eq_decide.2 hin]
  · have hout : ¬ j < sp.bitLength := by omega
    have hge : (valueArray m sp).length ≤ j / 8 := by rw [length_valueArray]; omega
    rw [List.getD_eq_default _ _ hge]
    simp [hout]

/-! ### The bits written -/

theorem getD_mergedBytes (m : Memory) (sp : BitSpan) (va : List Byte) {k : Nat} (hk : k < sp.touched) :
    (mergedBytes m sp va).getD k 0#8 =
      mergeByte (m.read (sp.firstByte + k)) (rawByte va sp.offset k) (writeMask sp k) := by
  rw [mergedBytes, List.getD_eq_getElem?_getD, List.getElem?_map, List.getElem?_range hk]
  rfl

/-- Each touched byte is merged, every other byte is as before (42_field_access.md R81). -/
theorem read_writeField {sp : BitSpan} (h : SpanOk sp) (m : Memory) (va : List Byte) (i : Nat) :
    (writeField m sp va).read i =
      if sp.firstByte ≤ i ∧ i ≤ sp.lastByte then
        mergeByte (m.read i) (rawByte va sp.offset (i - sp.firstByte)) (writeMask sp (i - sp.firstByte))
      else m.read i := by
  have hlen : (mergedBytes m sp va).length = sp.touched := by simp [mergedBytes]
  have htouched := firstByte_add_touched h
  rw [writeField, Memory.read_writeBytes, hlen]
  by_cases hi : sp.firstByte ≤ i ∧ i ≤ sp.lastByte
  · have hpos : sp.firstByte + (i - sp.firstByte) = i := by omega
    rw [if_pos hi, if_pos (by omega), getD_mergedBytes m sp va (by omega), hpos]
  · rw [if_neg hi, if_neg (by omega)]

/-- Each bit of the span takes its value bit, every other bit is as before (42_field_access.md R83). -/
theorem bit_writeField {sp : BitSpan} (h : SpanOk sp) (m : Memory) (va : List Byte) (b : Nat) :
    (writeField m sp va).bit b =
      if sp.firstBit ≤ b ∧ b ≤ sp.lastBit then valueBit va ((b - sp.firstBit : Nat) : Int) else m.bit b := by
  have hmod : b % 8 < 8 := Nat.mod_lt b (by decide)
  rw [Memory.bit, read_writeField h]
  by_cases hb : sp.firstByte ≤ b / 8 ∧ b / 8 ≤ sp.lastByte
  · have htouched := firstByte_add_touched h
    have hk : b / 8 - sp.firstByte < sp.touched := by omega
    have hpos : 8 * (sp.firstByte + (b / 8 - sp.firstByte)) + b % 8 = b := by omega
    rw [if_pos hb, getLsbD_mergeByte _ _ _ hmod, getLsbD_writeMask h hk hmod, hpos,
      getLsbD_rawByte_span va sp hmod]
    simp only [decide_eq_true_eq]
    split
    · have hplace : 8 * ((sp.firstByte + (b / 8 - sp.firstByte) : Nat) : Int) + (b % 8 : Nat) - sp.firstBit =
          ((b - sp.firstBit : Nat) : Int) := by omega
      rw [hplace]
    · rfl
  · have hout : ¬ (sp.firstBit ≤ b ∧ b ≤ sp.lastBit) := fun hin =>
      hb ⟨Nat.div_le_div_right hin.1, Nat.div_le_div_right hin.2⟩
    rw [if_neg hb, if_neg hout, Memory.bit]

/-! ### GET and SET of an unsigned field -/

theorem mod_two_pow_mod_two_pow (x m n : Nat) : x % 2 ^ m % 2 ^ n = x % 2 ^ min n m := by
  refine Nat.eq_of_testBit_eq fun j => ?_
  simp only [Nat.testBit_mod_two_pow, Nat.lt_min, Bool.decide_and, Bool.and_assoc]

theorem hasValue_of_isUnsigned {ty : ValueType} {w v : Nat} (h : IsUnsigned ty w) :
    hasValue ty (.uint v) = decide (v < 2 ^ w) := by
  rcases h with rfl | rfl <;> rfl

variable {s : State} {f : Nat} {d : FieldDescriptor} {w : Nat}

theorem exec_get_unsigned (hwf : s.cfg.WellFormed) (hd : s.cfg.desc[f]? = some d) (hty : IsUnsigned d.valueType w) :
    exec (.get f) s = .next (s.respond (some (.value (.uint (leValue (valueArray s.buf d.span) % 2 ^ w))))) :=
  exec_get_of_decode hwf hd (decodeValue_of_isUnsigned hty _)

theorem exec_set_unsigned {v : Nat} (hwf : s.cfg.WellFormed) (hd : s.cfg.desc[f]? = some d)
    (hty : IsUnsigned d.valueType w) (hv : v < 2 ^ w) (hin : s.dataIn = some (.value (.uint v))) :
    exec (.set f) s = .next (s.store (writeField s.buf d.span (leBytes d.span.byteLength v))) := by
  have hval : hasValue d.valueType (.uint v) = true := by rw [hasValue_of_isUnsigned hty, decide_eq_true hv]
  exact exec_set_of_operand (v := .uint v) hwf hd (State.valueOperand_eq_some.2 ⟨hin, hval⟩)

/-- A span inside another one into which `v` was written holds the bits of `v` from its own place on. -/
theorem bit_writeField_leBytes_inner {a b : BitSpan} (ha : SpanOk a) (hb : SpanOk b) (hfirst : a.firstBit ≤ b.firstBit)
    (hlast : b.lastBit ≤ a.lastBit) (m : Memory) (v : Nat) {j : Nat} (hj : j < b.bitLength) :
    (writeField m a (leBytes a.byteLength v)).bit (b.firstBit + j) = v.testBit (j + (b.firstBit - a.firstBit)) := by
  have hlenA := firstBit_add_bitLength ha
  have hlenB := firstBit_add_bitLength hb
  have hbytes := a.byteLength_bounds
  have hplace : b.firstBit + j - a.firstBit = j + (b.firstBit - a.firstBit) := by omega
  have hfit : j + (b.firstBit - a.firstBit) < 8 * a.byteLength := by omega
  rw [bit_writeField ha, if_pos (by omega), valueBit_leBytes, hplace, decide_eq_true hfit, Bool.true_and]

theorem leValue_inner {a b : BitSpan} (ha : SpanOk a) (hb : SpanOk b) (hfirst : a.firstBit ≤ b.firstBit)
    (hlast : b.lastBit ≤ a.lastBit) (m : Memory) (v : Nat) :
    leValue (valueArray (writeField m a (leBytes a.byteLength v)) b) =
      v / 2 ^ (b.firstBit - a.firstBit) % 2 ^ b.bitLength := by
  refine Nat.eq_of_testBit_eq fun j => ?_
  rw [testBit_leValue, valueBit_valueArray, Nat.testBit_mod_two_pow, Nat.testBit_div_two_pow]
  by_cases hj : j < b.bitLength
  · rw [bit_writeField_leBytes_inner ha hb hfirst hlast m v hj]
  · simp [hj]

/-- Settles O38: SET places the value's bits in the outer span, and GET reads those the inner span holds. -/
theorem innerFieldReadsTheOuterValue : Obligations.InnerFieldReadsTheOuterValue := by
  intro s f g a b wa wb v hwf ha hb htyA htyB hv hin hfirst hlast
  have hokA := hwf.spanOk (List.mem_of_getElem? ha)
  have hokB := hwf.spanOk (List.mem_of_getElem? hb)
  have hget := exec_get_unsigned (s := s.store (writeField s.buf a.span (leBytes a.span.byteLength v))) hwf hb htyB
  rw [State.store_buf, leValue_inner hokA hokB hfirst hlast, mod_two_pow_mod_two_pow] at hget
  exact ⟨_, exec_set_unsigned hwf ha htyA hv hin, hget⟩

end Sys2Proof.Machine
end

section
/-! The decoder and the encoder read as quotients and remainders of the command word: which words decode to which operation,
and that each is the encoding of what it decodes to (30_encoding.md R49 to R54). -/

namespace Sys2Proof

open Laws

variable {w : Word} {i : Instr}

/-! ### The fields of a word -/

theorem slice_opcode (w : Word) : slice w 15 12 = w.toNat / 4096 := by
  have hw : w.toNat < 65536 := w.isLt
  simp only [slice]
  omega

theorem slice_operandField (w : Word) : slice w 11 0 = w.toNat % 4096 := by
  simp [slice]

theorem slice_reservedM (w : Word) : slice w 11 8 = w.toNat % 4096 / 256 := by
  simp only [slice]
  omega

theorem slice_to (w : Word) : slice w 7 4 = w.toNat / 16 % 16 := rfl

theorem slice_from (w : Word) : slice w 3 0 = w.toNat % 16 := by
  simp [slice]

/-! ### The rows of the decoder -/

theorem decode_of_opcode_zero (h : w.toNat / 4096 = 0) :
    decode w =
      if w.toNat % 4096 / 256 = 0 then .ok (.fillMask (w.toNat % 16) (w.toNat / 16 % 16)) else .error (.reservedBits w) := by
  simp only [decode, slice_opcode, h, slice_reservedM, slice_from, slice_to]

theorem decode_of_opcode_one (h : w.toNat / 4096 = 1) : decode w = .ok (.get (w.toNat % 4096)) := by
  simp only [decode, slice_opcode, h, slice_operandField]

theorem decode_of_opcode_two (h : w.toNat / 4096 = 2) : decode w = .ok (.set (w.toNat % 4096)) := by
  simp only [decode, slice_opcode, h, slice_operandField]

theorem decodeZ_eq (w : Word) (i : Instr) :
    decodeZ w i = if w.toNat % 4096 = 0 then .ok i else .error (.reservedBits w) := by
  rw [decodeZ, slice_operandField]

/-- The rows of format Z are those of the opcodes from 3 on (30_encoding.md R52). -/
theorem decode_of_opcode_formatZ (hi : 3 ≤ i.opcode) (h : w.toNat / 4096 = i.opcode) :
    decode w = if w.toNat % 4096 = 0 then .ok i else .error (.reservedBits w) := by
  rw [← decodeZ_eq, decode, slice_opcode, h]
  cases i with
  | fillMask lo hi => simp [Instr.opcode] at hi
  | get f | set f => simp [Instr.opcode] at hi
  | default | fromBuf | data | clone => rfl

theorem decode_of_formatZ (hi : 3 ≤ i.opcode) (hop : w.toNat / 4096 = i.opcode) (hz : w.toNat % 4096 = 0) :
    decode w = .ok i := by
  rw [decode_of_opcode_formatZ hi hop, if_pos hz]

theorem exists_opcode_formatZ {n : Nat} (hlow : 3 ≤ n) (hhigh : n ≤ 6) : ∃ i : Instr, i.opcode = n := by
  obtain rfl | rfl | rfl | rfl : n = 3 ∨ n = 4 ∨ n = 5 ∨ n = 6 := by omega
  · exact ⟨.default, rfl⟩
  · exact ⟨.fromBuf, rfl⟩
  · exact ⟨.data, rfl⟩
  · exact ⟨.clone, rfl⟩

theorem decode_of_seven_le_opcode (h : 7 ≤ w.toNat / 4096) : decode w = .error (.reservedOp w) := by
  rw [decode, slice_opcode]
  split
  case h_8 => rfl
  all_goals omega

/-- Settles O3: row by row; the refusals of format Z through the operation of the row's opcode. -/
theorem decodeIsTotalAsTabulated : Obligations.DecodeIsTotalAsTabulated := by
  intro w
  refine ⟨fun hop hres => ?_, fun hop hres => ?_, decode_of_opcode_one, decode_of_opcode_two,
    decode_of_formatZ (i := .default) (by decide), decode_of_formatZ (i := .fromBuf) (by decide),
    decode_of_formatZ (i := .data) (by decide), decode_of_formatZ (i := .clone) (by decide), fun hlow hhigh hnz => ?_,
    decode_of_seven_le_opcode⟩
  · rw [decode_of_opcode_zero hop, if_pos hres]
  · rw [decode_of_opcode_zero hop, if_neg hres]
  · obtain ⟨i, hi⟩ := exists_opcode_formatZ hlow hhigh
    rw [decode_of_opcode_formatZ (hi ▸ hlow) hi.symm, if_neg hnz]

/-! ### Round trips -/

/-- The reading of R48 and R49 for every operation: the opcode above the operand field. -/
theorem opcodeField (i : Instr) : OpcodeField.Statement i := by
  cases i with
  | fillMask lo hi => exact OpcodeField.fillMask lo hi
  | get f => exact OpcodeField.get f
  | set f => exact OpcodeField.set f
  | default => exact OpcodeField.default
  | fromBuf => exact OpcodeField.fromBuf
  | data => exact OpcodeField.data
  | clone => exact OpcodeField.clone

/-- A word whose quotient and remainder are the opcode and the operand field of a well-formed operation decodes to it. -/
theorem decode_of_fields (hwf : i.wf = true) (hop : w.toNat / 4096 = i.opcode)
    (hfield : w.toNat % 4096 = i.operandField) : decode w = .ok i := by
  cases i with
  | fillMask lo hi =>
    simp only [Instr.wf, Bool.and_eq_true, decide_eq_true_eq] at hwf
    simp only [Instr.operandField] at hfield
    have hlo : w.toNat % 16 = lo := by omega
    have hhi : w.toNat / 16 % 16 = hi := by omega
    rw [decode_of_opcode_zero hop, if_pos (by omega), hlo, hhi]
  | get f => rw [decode_of_opcode_one hop, hfield, Instr.operandField]
  | set f => rw [decode_of_opcode_two hop, hfield, Instr.operandField]
  | default | fromBuf | data | clone => exact decode_of_formatZ (by simp [Instr.opcode]) hop hfield

/-- Settles O1: encoding puts the opcode and the operand field where decoding looks for them. -/
theorem decodeInvertsEncode : Obligations.DecodeInvertsEncode := by
  intro i hwf
  obtain ⟨hop, hfield⟩ := opcodeField i hwf
  exact decode_of_fields hwf hop hfield

/-- The operation a word decodes to holds all of the word: its opcode and its operand field. -/
theorem decode_eq_ok (h : decode w = .ok i) :
    i.wf = true ∧ w.toNat / 4096 = i.opcode ∧ w.toNat % 4096 = i.operandField := by
  simp only [decode, decodeZ_eq, slice_opcode, slice_operandField, slice_reservedM, slice_from, slice_to] at h
  split at h
  case h_1 hop =>
    split at h
    case isTrue hres =>
      cases h
      refine ⟨?_, hop, ?_⟩
      · simp only [Instr.wf, Bool.and_eq_true, decide_eq_true_eq]
        omega
      · simp only [Instr.operandField]
        omega
    case isFalse => cases h
  case h_2 hop | h_3 hop =>
    cases h
    exact ⟨decide_eq_true (Nat.mod_lt _ (by decide)), hop, rfl⟩
  case h_4 hop | h_5 hop | h_6 hop | h_7 hop =>
    split at h
    case isTrue hz => cases h; exact ⟨rfl, hop, hz⟩
    case isFalse => cases h
  case h_8 => cases h

theorem decode_eq_ok_iff :
    decode w = .ok i ↔ i.wf = true ∧ w.toNat / 4096 = i.opcode ∧ w.toNat % 4096 = i.operandField :=
  ⟨decode_eq_ok, fun ⟨hwf, hop, hfield⟩ => decode_of_fields hwf hop hfield⟩

/-- Settles O2: the word is its quotient and remainder put together again. -/
theorem encodeInvertsDecode : Obligations.EncodeInvertsDecode := by
  intro w i h
  obtain ⟨hwf, hop, hfield⟩ := decode_eq_ok h
  refine ⟨hwf, ?_⟩
  rw [encode, ← hop, ← hfield, Nat.div_add_mod', BitVec.ofNat_toNat, BitVec.setWidth_eq]


/-! ### Match and mask -/

/-- How many low bits of the word the row of an opcode leaves to its operands: 8 in format M, 12 in format F, none in format Z
(30_encoding.md R49). -/
def operandBits : Nat → Nat
  | 0 => 8
  | 1 => 12
  | 2 => 12
  | _ => 0

theorem maskWord_eq (i : Instr) : i.maskWord = BitVec.allOnes 16 <<< operandBits i.opcode := by
  cases i <;> simp [Instr.maskWord, Instr.opcode, operandBits]

theorem toNat_matchWord (i : Instr) : i.matchWord.toNat = i.opcode * 4096 := by
  cases i <;> simp only [Instr.matchWord, Instr.opcode, BitVec.toNat_ofNat]

theorem operandField_lt (h : i.wf = true) : i.operandField < 2 ^ operandBits i.opcode := by
  cases i with
  | fillMask lo hi =>
    simp only [Instr.wf, Bool.and_eq_true, decide_eq_true_eq] at h
    simp only [Instr.operandField, Instr.opcode, operandBits]
    omega
  | get f | set f => exact of_decide_eq_true h
  | default | fromBuf | data | clone => exact Nat.one_pos

/-- Every content of the free bits of a row is the operand field of one of its operations (30_encoding.md R50). -/
theorem exists_wf_of_operandField {n : Nat} (i : Instr) (hn : n < 2 ^ operandBits i.opcode) :
    ∃ j : Instr, j.wf = true ∧ j.opcode = i.opcode ∧ j.operandField = n := by
  cases i with
  | fillMask lo hi =>
    have hn : n < 256 := hn
    refine ⟨.fillMask (n % 16) (n / 16), ?_, rfl, Nat.div_add_mod' n 16⟩
    simp only [Instr.wf, Bool.and_eq_true, decide_eq_true_eq]
    omega
  | get f => exact ⟨.get n, decide_eq_true hn, rfl, rfl⟩
  | set f => exact ⟨.set n, decide_eq_true hn, rfl, rfl⟩
  | default => exact ⟨.default, rfl, rfl, (Nat.lt_one_iff.1 hn).symm⟩
  | fromBuf => exact ⟨.fromBuf, rfl, rfl, (Nat.lt_one_iff.1 hn).symm⟩
  | data => exact ⟨.data, rfl, rfl, (Nat.lt_one_iff.1 hn).symm⟩
  | clone => exact ⟨.clone, rfl, rfl, (Nat.lt_one_iff.1 hn).symm⟩

/-- Under the mask, the word with its free bits cleared. -/
theorem toNat_and_maskWord (w : Word) (i : Instr) :
    (w &&& i.maskWord).toNat = w.toNat / 2 ^ operandBits i.opcode * 2 ^ operandBits i.opcode := by
  have hlt : w.toNat / 2 ^ operandBits i.opcode * 2 ^ operandBits i.opcode < 2 ^ 16 :=
    Nat.lt_of_le_of_lt (Nat.div_mul_le_self _ _) w.isLt
  rw [maskWord_eq, ← BitVec.shiftLeft_ushiftRight, BitVec.toNat_shiftLeft, BitVec.toNat_ushiftRight,
    Nat.shiftRight_eq_div_pow, Nat.shiftLeft_eq, Nat.mod_eq_of_lt hlt]

/-- A word meets a row when it holds the row's opcode and nothing but operand bits below it (30_encoding.md R49, R52). -/
theorem and_maskWord_eq_matchWord_iff (w : Word) (i : Instr) :
    w &&& i.maskWord = i.matchWord ↔ w.toNat / 4096 = i.opcode ∧ w.toNat % 4096 < 2 ^ operandBits i.opcode := by
  rw [← BitVec.toNat_inj, toNat_and_maskWord, toNat_matchWord]
  cases i <;> simp only [Instr.opcode, operandBits] <;> omega

theorem exists_decode_opcode_iff (w : Word) (i : Instr) :
    (∃ j : Instr, decode w = .ok j ∧ j.opcode = i.opcode) ↔
      w.toNat / 4096 = i.opcode ∧ w.toNat % 4096 < 2 ^ operandBits i.opcode := by
  constructor
  · rintro ⟨j, hj, hop⟩
    obtain ⟨hwf, hopcode, hfield⟩ := decode_eq_ok hj
    rw [hopcode, hfield, ← hop]
    exact ⟨rfl, operandField_lt hwf⟩
  · rintro ⟨hopcode, hfield⟩
    obtain ⟨j, hwf, hop, hj⟩ := exists_wf_of_operandField i hfield
    exact ⟨j, decode_of_fields hwf (hopcode.trans hop.symm) hj.symm, hop⟩

/-- Settles O4: meeting the row and decoding to it both say that the word is the row's opcode over free bits. -/
theorem decodeAgreesWithMatchAndMask : Obligations.DecodeAgreesWithMatchAndMask := fun w i =>
  (and_maskWord_eq_matchWord_iff w i).trans (exists_decode_opcode_iff w i).symm

/-! ### Words the spec writes out -/

/-- Settles O5: the accepted words are encodings of well-formed operations, the refused ones rows of the decoder. -/
theorem specWordsDecode : Obligations.SpecWordsDecode :=
  ⟨decodeInvertsEncode (.fillMask 2 6) rfl, decodeInvertsEncode (.get 3) rfl, decodeInvertsEncode (.set 0) rfl,
    decodeInvertsEncode .default rfl, decodeInvertsEncode .fromBuf rfl, decodeInvertsEncode .data rfl,
    decodeInvertsEncode .clone rfl, decode_of_seven_le_opcode (by decide),
    decode_of_opcode_formatZ (i := .data) (by decide) rfl, decode_of_opcode_zero rfl⟩

end Sys2Proof
end

section
/-! The text of the operations (30_encoding.md R56): how a field name resolves, and the example lines. -/

namespace Sys2Proof.Machine

theorem fieldNamed_eq_findIdx? (name : List Char) (ds : List FieldDescriptor) :
    fieldNamed name ds = ds.findIdx? (fun d => d.name.toList = name) := by
  induction ds with
  | nil => rfl
  | cons d ds ih => simp only [fieldNamed, List.findIdx?_cons, ih, decide_eq_true_eq]

/-- Settles O6: the resolver is the library's search for the first index. -/
theorem fieldNameIsFirstDescriptorSoNamed : Obligations.FieldNameIsFirstDescriptorSoNamed := by
  intro name ds f
  rw [fieldNamed_eq_findIdx?, List.findIdx?_eq_some_iff_getElem]
  simp only [decide_eq_true_eq]
  constructor
  · rintro ⟨hf, hname, hfirst⟩
    refine ⟨⟨ds[f], List.getElem?_eq_getElem hf, hname⟩, fun g d hg hd => ?_⟩
    obtain ⟨-, rfl⟩ := List.getElem?_eq_some_iff.1 hd
    exact hfirst g hg
  · rintro ⟨⟨d, hd, hname⟩, hfirst⟩
    obtain ⟨hf, rfl⟩ := List.getElem?_eq_some_iff.1 hd
    exact ⟨hf, hname, fun g hg => hfirst g _ hg (List.getElem?_eq_getElem (Nat.lt_trans hg hf))⟩

/-- Settles O7: no line names a field by its descriptor or gives bytes, so each evaluates under an arbitrary configuration. -/
theorem exampleLinesAssemble : Obligations.ExampleLinesAssemble := fun _ => ⟨rfl, rfl, rfl, rfl⟩

end Sys2Proof.Machine
end

section
/-! The refusals by operand: a field that is not there, and data-in of the wrong kind (30_encoding.md R54 (d), (e), (f)). -/

namespace Sys2Proof.Machine

variable {s : State} {f : Nat}

theorem exec_get_of_none (hd : s.cfg.desc[f]? = none) : exec (.get f) s = .next (s.refuse (.fieldIndex f)) :=
  State.withField_of_none hd _

theorem exec_set_of_none (hd : s.cfg.desc[f]? = none) : exec (.set f) s = .next (s.refuse (.fieldIndex f)) :=
  State.withField_of_none hd _

/-- Settles O31: an index from `F` on reaches no descriptor, and nothing else is looked at. -/
theorem missingFieldIsRefused : Obligations.MissingFieldIsRefused := by
  intro s f hf
  have hd : s.cfg.desc[f]? = none := List.getElem?_eq_none hf
  exact ⟨exec_get_of_none hd, exec_set_of_none hd⟩

theorem State.valueOperand_eq_none {ty : ValueType} (h : ∀ v, s.dataIn = some (.value v) → hasValue ty v = false) :
    s.valueOperand ty = none := by
  refine Option.eq_none_iff_forall_ne_some.2 fun v hv => ?_
  obtain ⟨hin, hval⟩ := State.valueOperand_eq_some.1 hv
  rw [h v hin] at hval
  cases hval

theorem hasValue_bool_of_isUnsigned {ty : ValueType} {w : Nat} (h : IsUnsigned ty w) (b : Bool) :
    hasValue ty (.bool b) = false := by
  rcases h with rfl | rfl <;> rfl

/-- Settles O33: SET finds no operand in data-in that is no value of the type, and the values are read off type by type. -/
theorem setRefusesDataOfTheWrongType : Obligations.SetRefusesDataOfTheWrongType := by
  refine ⟨fun s f d hwf hd hin => ?_, fun ty w v hty => ?_, fun ty w b hty => hasValue_bool_of_isUnsigned hty b,
    fun v => rfl, fun b => rfl⟩
  · exact exec_set_of_no_operand hwf hd (State.valueOperand_eq_none hin)
  · rw [hasValue_of_isUnsigned hty, decide_eq_true_eq]

theorem State.bytesOperand_eq_none (h : ∀ bs, s.dataIn ≠ some (.bytes bs)) : s.bytesOperand = none :=
  Option.eq_none_iff_forall_ne_some.2 fun bs hbs => h bs (State.bytesOperand_eq_some.1 hbs)

theorem exec_fromBuf_of_no_operand (h : s.bytesOperand = none) :
    exec .fromBuf s = .next (s.refuse (.fromLength none)) := by
  simp only [exec, execFromBuf, h]

/-- Settles O42: FROM finds no byte list, so there is no length to record. -/
theorem fromRefusesDataThatIsNoBytes : Obligations.FromRefusesDataThatIsNoBytes := fun _ h =>
  exec_fromBuf_of_no_operand (State.bytesOperand_eq_none h)

end Sys2Proof.Machine
end

section
/-! The statements of the mask and shift engine (40_mask_engine.md), from its bits: `fill_mask` as a number and by its laws, the
FILL_MASK operation, and the byte helpers of GET and SET. -/

namespace Sys2Proof.Machine

variable {s : State} {lo hi : Nat}

/-! ### fill_mask as a number -/

/-- The sum that defines `fill_mask` is geometric (40_mask_engine.md R59, R60 (b)). -/
theorem fillMask_eq_ofNat (h : lo ≤ hi) : fillMask lo hi = BitVec.ofNat 8 (2 ^ hi - 2 ^ lo) := by
  rw [fillMask, sum_two_pow_range', Nat.mul_sub_one, ← pow_add, Nat.add_sub_cancel' h]

theorem toNat_fillMask (h : lo ≤ hi) (hhi : hi ≤ 8) : (fillMask lo hi).toNat = 2 ^ hi - 2 ^ lo := by
  have hpos : 0 < 2 ^ lo := Nat.two_pow_pos lo
  have hle : 2 ^ hi ≤ 2 ^ 8 := Nat.pow_le_pow_right (by decide) hhi
  rw [fillMask_eq_ofNat h, BitVec.toNat_ofNat]
  exact Nat.mod_eq_of_lt (by omega)

theorem mod_two_pow_eq_sum_bits (x n : Nat) :
    x % 2 ^ n = ((List.range n).map fun i => if x.testBit i = true then 2 ^ i else 0).sum := by
  induction n with
  | zero => simp [Nat.mod_one]
  | succ n ih =>
    rw [Nat.mod_pow_succ, ih, ← Nat.toNat_testBit, List.range_succ, List.map_append, List.sum_append]
    cases hbit : x.testBit n <;> simp [hbit]

theorem Byte.toNat_eq_sum_bits (b : Byte) :
    b.toNat = ((List.range 8).map fun i => if b.getLsbD i = true then 2 ^ i else 0).sum := by
  have hsum := mod_two_pow_eq_sum_bits b.toNat 8
  rw [Nat.mod_eq_of_lt b.isLt] at hsum
  exact hsum

/-- Settles O8: the bits are those of the geometric sum, and a byte is the sum of its bits. -/
theorem fillMaskSetsExactlyItsBits : Obligations.FillMaskSetsExactlyItsBits := by
  refine ⟨fun lo hi _ hhi => ⟨fun i _ => ?_, ?_⟩, fun x _ => ?_, rfl⟩
  · rw [getLsbD_fillMask hhi, decide_eq_true_eq]
  · rw [Byte.toNat_eq_sum_bits]
    simp only [getLsbD_fillMask hhi, decide_eq_true_eq]
  · rw [fillMask_eq_ofNat (Nat.le_refl x), Nat.sub_self]

/-! ### The laws of fill_mask (40_mask_engine.md R60) -/

/-- Law (a): the bits from `from` on, and the bits below `to`. -/
theorem fillMask_eq_shifts (lo : Nat) (hhi : hi ≤ 8) : fillMask lo hi = shl8 0xFF#8 lo &&& shr8 0xFF#8 (8 - hi) := by
  have hones : 0xFF#8 = BitVec.allOnes 8 := rfl
  refine BitVec.eq_of_getLsbD_eq fun i hlt => ?_
  rw [getLsbD_fillMask hhi, BitVec.getLsbD_and, getLsbD_shl8 _ hlt, getLsbD_shr8, hones, BitVec.getLsbD_allOnes,
    BitVec.getLsbD_allOnes]
  simp only [← Bool.decide_and, decide_eq_decide]
  omega

/-- Law (c), adjacent masks join. -/
theorem fillMask_or_fillMask {a b c : Nat} (hab : a ≤ b) (hbc : b ≤ c) (hc : c ≤ 8) :
    fillMask a b ||| fillMask b c = fillMask a c := by
  refine BitVec.eq_of_getLsbD_eq fun i _ => ?_
  rw [BitVec.getLsbD_or, getLsbD_fillMask (Nat.le_trans hbc hc), getLsbD_fillMask hc, getLsbD_fillMask hc]
  simp only [← Bool.decide_or, decide_eq_decide]
  omega

/-- Law (c), adjacent masks share no bit. -/
theorem fillMask_and_fillMask (a : Nat) {b c : Nat} (hbc : b ≤ c) (hc : c ≤ 8) :
    fillMask a b &&& fillMask b c = 0#8 := by
  refine BitVec.eq_of_getLsbD_eq fun i _ => ?_
  rw [BitVec.getLsbD_and, getLsbD_fillMask (Nat.le_trans hbc hc), getLsbD_fillMask hc, BitVec.getLsbD_zero]
  simp only [← Bool.decide_and, decide_eq_false_iff_not]
  omega

/-- Law (d): complementing the bits below `o` leaves those from `o` on. -/
theorem not_fillMask {o : Nat} (ho : o ≤ 8) : ~~~fillMask 0 o = fillMask o 8 := by
  refine BitVec.eq_of_getLsbD_eq fun i hlt => ?_
  rw [BitVec.getLsbD_not, getLsbD_fillMask ho, getLsbD_fillMask (Nat.le_refl 8), ← decide_not, ← Bool.decide_and,
    decide_eq_decide]
  omega

/-- Law (e): a mask moved down by its lower bound begins at bit 0. -/
theorem shr8_fillMask {o n : Nat} (h : o + n ≤ 8) : shr8 (fillMask o (o + n)) o = fillMask 0 n := by
  refine BitVec.eq_of_getLsbD_eq fun i _ => ?_
  rw [getLsbD_shr8, getLsbD_fillMask h, getLsbD_fillMask (Nat.le_of_add_left_le h), decide_eq_decide]
  omega

/-- Settles O9: (b) is the geometric sum, the other laws are read off bit by bit. -/
theorem fillMaskLaws : Obligations.FillMaskLaws :=
  ⟨fun lo _ _ hhi => fillMask_eq_shifts lo hhi, fun _ _ => toNat_fillMask,
    fun a _ _ hab hbc hc => ⟨fillMask_or_fillMask hab hbc hc, fillMask_and_fillMask a hbc hc⟩,
    fun _ => not_fillMask, fun _ _ => shr8_fillMask⟩

/-! ### FILL_MASK (40_mask_engine.md R61) -/

theorem encode_fillMask (lo hi : Nat) : encode (.fillMask lo hi) = BitVec.ofNat 16 (hi * 16 + lo) := by
  rw [encode, Instr.opcode, Instr.operandField, Nat.zero_mul, Nat.zero_add]

theorem fillMask_wf (hlo : lo < 16) (hhi : hi < 16) : (Instr.fillMask lo hi).wf = true := by
  rw [Instr.wf, decide_eq_true hlo, decide_eq_true hhi, Bool.and_self]

theorem exec_fillMask_of_le (h : lo ≤ hi) (hhi : hi ≤ 8) :
    exec (.fillMask lo hi) s = .next (s.respond (some (.byte (fillMask lo hi)))) := by
  obtain ⟨hbad, -⟩ | ⟨-, -, hnext⟩ := execFillMask_cases lo hi s
  · omega
  · exact hnext

theorem exec_fillMask_of_bad (h : 8 < lo ∨ 8 < hi ∨ hi < lo) :
    exec (.fillMask lo hi) s = .next (s.refuse (.maskArg lo hi)) := by
  obtain ⟨-, hnext⟩ | ⟨hle, hhi, -⟩ := execFillMask_cases lo hi s
  · exact hnext
  · omega

/-- Settles O10: the word is the encoding of FILL_MASK or a reserved one, and the operation answers or refuses. -/
theorem fillMaskOperation : Obligations.FillMaskOperation := by
  refine ⟨fun lo hi hlo hhi => ?_, fun w hop hres => ?_, fun lo hi s h hhi => ?_, fun lo hi s h => exec_fillMask_of_bad h⟩
  · rw [← encode_fillMask]
    exact decodeInvertsEncode _ (fillMask_wf hlo hhi)
  · rw [decode_of_opcode_zero hop, if_neg (by omega)]
  · rw [exec_fillMask_of_le h hhi, fillMask_eq_ofNat h]
    rfl

/-! ### The byte helpers -/

/-- Settles O11: a byte without a bit from `len` on is below `2^len`. -/
theorem extractByteReadsItsBits : Obligations.ExtractByteReadsItsBits := by
  refine fun m a len _ hlen => ⟨fun j hj => getLsbD_extractByte m hlen hj, Nat.lt_pow_two_of_testBit _ fun j hj => ?_⟩
  rw [BitVec.testBit_toNat]
  by_cases hj8 : j < 8
  · rw [getLsbD_extractByte m hlen hj8, decide_eq_false (Nat.not_lt.2 hj), Bool.false_and]
  · exact BitVec.getLsbD_of_ge _ j (Nat.not_lt.1 hj8)

/-- Settles O12: the law of `raw_byte` for any offset, and at the offset of a span. -/
theorem rawBytePlacesValueBits : Obligations.RawBytePlacesValueBits :=
  ⟨fun va _ _ _ ho hp => getLsbD_rawByte va ho hp, fun va sp _ _ hp => getLsbD_rawByte_span va sp hp⟩

/-- A segment's lowest bit is a bit of its mask. -/
theorem writeMask_ne_zero {sp : BitSpan} {k : Nat} (h : SpanOk sp) (hk : k < sp.touched) : writeMask sp k ≠ 0#8 := by
  intro hzero
  have hbit := getLsbD_fillMask (lo := (sp.segment k).lo) (i := (sp.segment k).lo) (sp.segment_hi_le k)
  rw [← writeMask, hzero, BitVec.getLsbD_zero, eq_comm, decide_eq_false_iff_not] at hbit
  exact hbit ⟨Nat.le_refl _, segment_lo_lt_hi h hk⟩

/-- Settles O13: the mask of the `k`-th segment, which is not empty. -/
theorem writeMaskIsTheSpanInThatByte : Obligations.WriteMaskIsTheSpanInThatByte := by
  refine fun sp k h hk => ⟨rfl, fun p hp => ?_, writeMask_ne_zero h hk⟩
  rw [getLsbD_writeMask h hk hp, decide_eq_true_eq]
  rfl

/-- Settles O14: the formula is the definition, and its bits are those of the choice by the mask. -/
theorem mergeByteSelectsByMask : Obligations.MergeByteSelectsByMask := fun old raw mask =>
  ⟨rfl, fun _ hp => getLsbD_mergeByte old raw mask hp⟩

end Sys2Proof.Machine
end

section
/-! The value codec (41_value_codec.md): a byte list as a number and cut short, the integer of a span, the encodings of unsigned
and bool values, and what SET and GET of a bool field do with them. -/

namespace Sys2Proof.Machine

variable {s : State} {f : Nat} {d : FieldDescriptor}

/-! ### Decoding an unsigned value -/

theorem leValue_eq_sum (va : List Byte) :
    leValue va = ((List.range va.length).map fun i => (va.getD i 0#8).toNat * 2 ^ (8 * i)).sum := by
  induction va with
  | nil => rfl
  | cons b bs ih =>
    have hshift (i : Nat) : ((b :: bs).getD (i + 1) 0#8).toNat * 2 ^ (8 * (i + 1)) =
        2 ^ 8 * ((bs.getD i 0#8).toNat * 2 ^ (8 * i)) := by
      rw [List.getD_cons_succ]
      ring
    rw [leValue, ih, List.length_cons, List.range_succ_eq_map, List.map_cons, List.sum_cons, List.map_map,
      ← List.sum_map_mul_left]
    simp only [Function.comp_def, hshift, List.getD_cons_zero, Nat.mul_zero, pow_zero, Nat.mul_one]

theorem valueBit_take (va : List Byte) (n j : Nat) :
    valueBit (va.take n) j = (decide (j < 8 * n) && valueBit va j) := by
  have hbyte : j / 8 < n ↔ j < 8 * n := by omega
  simp only [valueBit_natCast, List.getD_eq_getElem?_getD, List.getElem?_take, hbyte]
  by_cases hj : j < 8 * n <;> simp [hj]

/-- The bytes from `n` on are multiples of `2^(8*n)` (41_value_codec.md R70). -/
theorem leValue_take (va : List Byte) (n : Nat) : leValue (va.take n) = leValue va % 2 ^ (8 * n) := by
  refine Nat.eq_of_testBit_eq fun j => ?_
  rw [testBit_leValue, valueBit_take, Nat.testBit_mod_two_pow, testBit_leValue]

theorem leValue_lt (va : List Byte) : leValue va < 2 ^ (8 * va.length) := by
  have hall := leValue_take va va.length
  rw [List.take_length] at hall
  exact hall ▸ Nat.mod_lt _ (Nat.two_pow_pos _)

/-- Settles O21: a list of at most `n` bytes is a number below `2^(8*n)`, and cutting a longer one off after `n` bytes is the
reduction itself. -/
theorem unsignedDecodeIsLittleEndianModWidth : Obligations.UnsignedDecodeIsLittleEndianModWidth := by
  refine fun n va => ⟨?_, fun hle => ?_, fun _ => ?_⟩
  · rw [decodeValue, leValue_eq_sum]
  · have hpow : 2 ^ (8 * va.length) ≤ 2 ^ (8 * n) := Nat.pow_le_pow_right (by decide) (Nat.mul_le_mul_left 8 hle)
    exact leValue_eq_sum va ▸ Nat.lt_of_lt_of_le (leValue_lt va) hpow
  · rw [decodeValue, decodeValue, leValue_take, Nat.mod_mod]

/-! ### Encoding an unsigned value -/

theorem length_leBytes (n v : Nat) : (leBytes n v).length = n := by
  simp [leBytes]

/-- Settles O22: a value of `M` bytes has quotient 0 by the weight of any byte from `M` on. -/
theorem unsignedEncodeIsLittleEndian : Obligations.UnsignedEncodeIsLittleEndian := by
  refine fun n v => ⟨length_leBytes n v, fun i hi => ?_, fun mBytes i hv hi => ?_⟩
  · rw [encodeValue, getD_leBytes, if_pos hi, BitVec.toNat_ofNat]
    exact Nat.mod_mod _ _
  · have hpow : 2 ^ (8 * mBytes) ≤ 2 ^ (8 * i) := Nat.pow_le_pow_right (by decide) (Nat.mul_le_mul_left 8 hi)
    rw [encodeValue, getD_leBytes, Nat.div_eq_of_lt (Nat.lt_of_lt_of_le hv hpow)]
    exact ite_self _

theorem leValue_leBytes (n v : Nat) : leValue (leBytes n v) = v % 2 ^ (8 * n) := by
  refine Nat.eq_of_testBit_eq fun j => ?_
  rw [testBit_leValue, valueBit_leBytes, Nat.testBit_mod_two_pow]

/-- Settles O23: `N` bytes keep `v mod 2^(8*N)`, which decoding reduces mod `2^W`. -/
theorem unsignedCodecRoundTrip : Obligations.UnsignedCodecRoundTrip := by
  intro w n v hv
  have hround : decodeValue (.uint w) (encodeValue n (.uint v)) = some (.uint (v % 2 ^ min w (8 * n))) := by
    rw [decodeValue, encodeValue, leValue_leBytes, mod_two_pow_mod_two_pow]
  refine ⟨hround, fun hfit => ?_⟩
  rw [hround, Nat.min_eq_left hfit, Nat.mod_eq_of_lt hv]

/-! ### Bool values -/

/-- `decode_N` of `Bool` is bit 0 of the value array (41_value_codec.md R74). -/
theorem decodeValue_bool (va : List Byte) : decodeValue .bool va = some (.bool (valueBit va 0)) := by
  have hbit (b : Byte) : (b &&& 1#8 == 1#8) = b.getLsbD 0 := by
    rw [BitVec.and_one_eq_setWidth_ofBool_getLsbD]
    cases b.getLsbD 0 <;> rfl
  rw [decodeValue, hbit]
  rfl

theorem boolBytes_succ (n : Nat) (b : Bool) :
    boolBytes (n + 1) b = (if b = true then 1#8 else 0#8) :: List.replicate n 0#8 := by
  simp [boolBytes, List.range_succ_eq_map, Function.comp_def, List.map_const']

/-- A bool is encoded as the number 0 or 1 (41_value_codec.md R71, R73). -/
theorem boolBytes_eq_leBytes (n : Nat) (b : Bool) : boolBytes n b = leBytes n b.toNat := by
  refine List.map_congr_left fun i _ => ?_
  cases i with
  | zero => cases b <;> rfl
  | succ i =>
    have hpow : 2 ^ 1 ≤ 2 ^ (8 * (i + 1)) := Nat.pow_le_pow_right (by decide) (by omega)
    rw [Nat.div_eq_of_lt (Nat.lt_of_lt_of_le b.toNat_lt hpow), if_neg (by simp)]

/-- The only value bit of an encoded bool is bit 0 of byte 0 (41_value_codec.md R73). -/
theorem valueBit_boolBytes {n : Nat} (hn : 1 ≤ n) (b : Bool) (j : Nat) :
    valueBit (boolBytes n b) j = (decide (j = 0) && b) := by
  rw [boolBytes_eq_leBytes, valueBit_leBytes, Nat.testBit_bool_toNat]
  by_cases hj : j = 0
  · have hin : j < 8 * n := by omega
    rw [decide_eq_true hin, Bool.true_and]
  · rw [decide_eq_false hj, Bool.false_and, Bool.and_false]

/-! ### A bool field -/

/-- The value array holds the bits of the span, so it has the integer of the span (42_field_access.md R78). -/
theorem leValue_valueArray (m : Memory) (sp : BitSpan) : leValue (valueArray m sp) = fieldInteger m sp := by
  have hbit (j : Nat) : (leValue (valueArray m sp)).testBit j = (decide (j < sp.bitLength) && m.bit (sp.firstBit + j)) := by
    rw [testBit_leValue, valueBit_valueArray]
  have hlt : leValue (valueArray m sp) < 2 ^ sp.bitLength := Nat.lt_pow_two_of_testBit _ fun j hj => by
    rw [hbit, decide_eq_false (Nat.not_lt.2 hj), Bool.false_and]
  rw [← Nat.mod_eq_of_lt hlt, mod_two_pow_eq_sum_bits, fieldInteger]
  refine congrArg List.sum (List.map_congr_left fun j hj => ?_)
  rw [hbit, decide_eq_true (List.mem_range.1 hj), Bool.true_and]
  cases m.bit (sp.firstBit + j) <;> simp

theorem valueBit_valueArray_zero (m : Memory) (sp : BitSpan) : valueBit (valueArray m sp) 0 = m.bit sp.firstBit := by
  have hbit := valueBit_valueArray m sp 0
  rwa [decide_eq_true (Nat.lt_of_succ_le sp.one_le_bitLength), Bool.true_and] at hbit

/-- Bit 0 of a field is the parity of its integer (42_field_access.md R78). -/
theorem bit_firstBit (m : Memory) (sp : BitSpan) : m.bit sp.firstBit = (fieldInteger m sp).testBit 0 := by
  rw [← leValue_valueArray, testBit_leValue]
  exact (valueBit_valueArray_zero m sp).symm

theorem exec_get_bool (hwf : s.cfg.WellFormed) (hd : s.cfg.desc[f]? = some d) (hty : d.valueType = .bool) :
    exec (.get f) s = .next (s.respond (some (.value (.bool (s.buf.bit d.span.firstBit))))) := by
  refine exec_get_of_decode hwf hd ?_
  rw [hty, decodeValue_bool, valueBit_valueArray_zero]

theorem exec_set_bool {b : Bool} (hwf : s.cfg.WellFormed) (hd : s.cfg.desc[f]? = some d) (hty : d.valueType = .bool)
    (hin : s.dataIn = some (.value (.bool b))) :
    exec (.set f) s = .next (s.store (writeField s.buf d.span (boolBytes d.span.byteLength b))) :=
  exec_set_of_operand (v := .bool b) hwf hd (State.valueOperand_eq_some.2 ⟨hin, by rw [hty, hasValue]⟩)

/-- Each bit of a span into which a bool was written: the bool in the first, 0 in the others. -/
theorem bit_writeField_boolBytes {sp : BitSpan} (h : SpanOk sp) (m : Memory) (b : Bool) {j : Nat}
    (hfirst : sp.firstBit ≤ j) (hlast : j ≤ sp.lastBit) :
    (writeField m sp (boolBytes sp.byteLength b)).bit j = (decide (j = sp.firstBit) && b) := by
  have hlen : 1 ≤ sp.byteLength := by
    have hbits := sp.one_le_bitLength
    have hbytes := sp.byteLength_bounds
    omega
  have hplace : j - sp.firstBit = 0 ↔ j = sp.firstBit := by omega
  rw [bit_writeField h, if_pos ⟨hfirst, hlast⟩, valueBit_boolBytes hlen, decide_eq_decide.2 hplace]

/-- Settles O24: decoding reads value bit 0, which encoding sets to the bool and which is 0 in a field that holds `0b0010`. -/
theorem boolDecodeReadsBitZeroOnly : Obligations.BoolDecodeReadsBitZeroOnly := by
  refine ⟨fun b bs => decodeValue_bool (b :: bs), fun n b hn => ?_, fun s f d hwf hd hty _ hheld => ?_⟩
  · have hbit : valueBit (boolBytes n b) 0 = b := valueBit_boolBytes hn b 0
    rw [encodeValue, decodeValue_bool, hbit]
  · rw [exec_get_bool hwf hd hty, bit_firstBit, hheld]
    rfl

/-- Settles O25: a bool's value bits above bit 0 are 0, and SET writes them into the rest of the span. -/
theorem boolEncodesInByteZero : Obligations.BoolEncodesInByteZero := by
  refine ⟨fun n => ⟨boolBytes_succ n false, boolBytes_succ n true⟩, fun s f d b hwf hd hty hin => ?_⟩
  have hok := hwf.spanOk (List.mem_of_getElem? hd)
  refine ⟨_, exec_set_bool hwf hd hty hin, ?_, fun j hfirst hlast => ?_⟩
  · rw [bit_writeField_boolBytes hok s.buf b (Nat.le_refl _) (firstBit_le_lastBit hok), decide_eq_true rfl, Bool.true_and]
  · rw [bit_writeField_boolBytes hok s.buf b hfirst.le hlast, decide_eq_false hfirst.ne', Bool.false_and]

/-! ### Wrapped integers -/

/-- Settles O26: the two types have the same equations, for either kind of value. -/
theorem wrappedLittleIsUnsigned : Obligations.WrappedLittleIsUnsigned := by
  refine fun w va v => ⟨rfl, ?_⟩
  cases v with
  | uint v => rfl
  | bool b => rfl

end Sys2Proof.Machine
end

section
/-! The field accessor (42_field_access.md): what GET reads depends on the bits of its span only, what SET writes stays in
its span, and the two together. -/

namespace Sys2Proof.Machine

variable {s : State} {f : Nat} {d : FieldDescriptor}

/-! ### GET -/

/-- Settles O27: the value array's bits are those of the span, and as a number it has the integer of the span. -/
theorem valueArrayHoldsTheFieldBits : Obligations.ValueArrayHoldsTheFieldBits := by
  refine fun m sp _ => ⟨length_valueArray m sp, fun j _ => valueBit_valueArray m sp j, ?_⟩
  rw [← leValue_valueArray, leValue_eq_sum, length_valueArray]

/-- Settles O28: GET drives the value array as a number, which is the integer of the span. -/
theorem getReturnsUnsignedField : Obligations.GetReturnsUnsignedField := by
  intro s f d w hwf hd hty
  rw [exec_get_unsigned hwf hd hty, leValue_valueArray]
  rfl

/-- Settles O29: bit 0 of the value array is the first bit of the span. -/
theorem getReturnsBoolField : Obligations.GetReturnsBoolField := fun _ _ _ hwf hd hty => exec_get_bool hwf hd hty

/-- Every field of a well-formed configuration has a codec (41_value_codec.md R68). -/
theorem exists_decodeValue_of_wellFormed {cfg : Config} (hwf : cfg.WellFormed) (hd : cfg.desc[f]? = some d)
    (va : List Byte) : ∃ v, decodeValue d.valueType va = some v :=
  exists_decodeValue_of_admitted ((Config.wellFormed_iff.1 hwf).1 d (List.mem_of_getElem? hd)).2 va

/-- Two blocks of one configuration whose buffers give a field the same value array drive the same value. -/
theorem exists_exec_get_eq {t : State} (hwf : s.cfg.WellFormed) (hd : s.cfg.desc[f]? = some d) (hcfg : t.cfg = s.cfg)
    (hva : valueArray t.buf d.span = valueArray s.buf d.span) :
    ∃ v, exec (.get f) s = .next (s.respond (some (.value v))) ∧
      exec (.get f) t = .next (t.respond (some (.value v))) := by
  obtain ⟨v, hv⟩ := exists_decodeValue_of_wellFormed hwf hd (valueArray s.buf d.span)
  have hwft : t.cfg.WellFormed := hcfg ▸ hwf
  have hdt : t.cfg.desc[f]? = some d := hcfg ▸ hd
  exact ⟨v, exec_get_of_decode hwf hd hv, exec_get_of_decode hwft hdt (hva ▸ hv)⟩

/-- Settles O30: the value driven is decoded from the configuration and the buffer alone. -/
theorem getIsIdempotent : Obligations.GetIsIdempotent := fun _ _ _ hwf hf hcfg hbuf =>
  exists_exec_get_eq hwf (List.getElem?_eq_getElem hf) hcfg (hbuf ▸ rfl)

/-! ### SET -/

theorem exec_set_of_hasValue {v : Value} (hwf : s.cfg.WellFormed) (hd : s.cfg.desc[f]? = some d)
    (hin : s.dataIn = some (.value v)) (hval : hasValue d.valueType v = true) :
    exec (.set f) s = .next (s.store (writeField s.buf d.span (encodeValue d.span.byteLength v))) :=
  exec_set_of_operand hwf hd (State.valueOperand_eq_some.2 ⟨hin, hval⟩)

theorem bit_writeField_of_outside {sp : BitSpan} (h : SpanOk sp) (m : Memory) (va : List Byte) {b : Nat}
    (hb : b < sp.firstBit ∨ sp.lastBit < b) : (writeField m sp va).bit b = m.bit b := by
  rw [bit_writeField h, if_neg (by omega)]

/-- Settles O32: the write of the value's encoding, read bit by bit and byte by byte. -/
theorem setWritesExactlyTheSpan : Obligations.SetWritesExactlyTheSpan := by
  intro s f d v hwf hd hin hval
  have hok := hwf.spanOk (List.mem_of_getElem? hd)
  refine ⟨_, exec_set_of_hasValue hwf hd hin hval, fun b hfirst hlast => ?_,
    fun b hb => bit_writeField_of_outside hok _ _ hb, fun i hi => ?_⟩
  · rw [bit_writeField hok, if_pos ⟨hfirst, hlast⟩]
  · rw [read_writeField hok, if_neg (by omega)]

/-- A number below `2^w` has no bit from `w` on. -/
theorem testBit_of_lt_two_pow {w v : Nat} (hv : v < 2 ^ w) (j : Nat) : v.testBit j = (decide (j < w) && v.testBit j) := by
  have hbit := Nat.testBit_mod_two_pow v w j
  rwa [Nat.mod_eq_of_lt hv] at hbit

/-- Settles O34: the span, as a span inside itself, holds the bits of the value from bit 0 on. -/
theorem setTruncatesSilently : Obligations.SetTruncatesSilently := by
  intro s f d w v hwf hd hty hv hin
  have hok := hwf.spanOk (List.mem_of_getElem? hd)
  refine ⟨_, exec_set_unsigned hwf hd hty hv hin, fun j hj => ?_⟩
  rw [bit_writeField_leBytes_inner hok hok (Nat.le_refl _) (Nat.le_refl _) s.buf v hj, Nat.sub_self, Nat.add_zero]
  exact testBit_of_lt_two_pow hv j

/-! ### GET after SET -/

/-- A span into which `v` was written has the integer `v mod 2^bit_length` (42_field_access.md R85, R86). -/
theorem leValue_valueArray_writeField {sp : BitSpan} (h : SpanOk sp) (m : Memory) (v : Nat) :
    leValue (valueArray (writeField m sp (leBytes sp.byteLength v)) sp) = v % 2 ^ sp.bitLength := by
  rw [leValue_inner h h (Nat.le_refl _) (Nat.le_refl _), Nat.sub_self, Nat.pow_zero, Nat.div_one]

/-- Settles O35: the span keeps the value mod `2^bit_length`, which decoding reduces mod `2^W`; a bool is its first bit. -/
theorem getAfterSetReturnsTheValue : Obligations.GetAfterSetReturnsTheValue := by
  refine ⟨fun s f d w v hwf hd hty hv hin => ?_, fun s f d b hwf hd hty hin => ?_⟩
  · have hok := hwf.spanOk (List.mem_of_getElem? hd)
    refine ⟨_, exec_set_unsigned hwf hd hty hv hin, ?_, fun hle => ?_⟩
    · rw [exec_get_unsigned (s := s.store _) hwf hd hty, State.store_buf, leValue_valueArray_writeField hok,
        mod_two_pow_mod_two_pow]
      rfl
    · rw [Nat.min_eq_right hle, Nat.one_shiftLeft, Nat.and_two_pow_sub_one_eq_mod]
  · have hok := hwf.spanOk (List.mem_of_getElem? hd)
    refine ⟨_, exec_set_bool hwf hd hty hin, ?_⟩
    rw [exec_get_bool (s := s.store _) hwf hd hty, State.store_buf,
      bit_writeField_boolBytes hok s.buf b (Nat.le_refl _) (firstBit_le_lastBit hok), decide_eq_true rfl, Bool.true_and]
    rfl

/-! ### SET after SET -/

theorem Memory.read_eq_of_bit {m m' : Memory} (h : ∀ b, m.bit b = m'.bit b) (i : Nat) : m.read i = m'.read i := by
  refine BitVec.eq_of_getLsbD_eq fun p hp => ?_
  rw [← Memory.bit_of_byte m hp, ← Memory.bit_of_byte m' hp, h]

theorem wf_writeField {m : Memory} (h : m.wf) (sp : BitSpan) (va : List Byte) : (writeField m sp va).wf :=
  Memory.wf_writeBytes _ _ h

/-- A second write of the same value array finds every bit as it leaves it (42_field_access.md R87). -/
theorem writeField_writeField {sp : BitSpan} (hok : SpanOk sp) {m : Memory} (hm : m.wf) (va : List Byte) :
    writeField (writeField m sp va) sp va = writeField m sp va := by
  have hwf := wf_writeField hm sp va
  refine Memory.ext_of_wf (wf_writeField hwf sp va) hwf (Memory.read_eq_of_bit fun b => ?_)
  simp only [bit_writeField hok]
  split <;> rfl

/-- Settles O36: the second write gives the same bits, so in canonical form the same buffer. -/
theorem setIsIdempotent : Obligations.SetIsIdempotent := by
  intro s f d v hwf hbuf hd hin hval
  have hok := hwf.spanOk (List.mem_of_getElem? hd)
  refine ⟨_, exec_set_of_hasValue hwf hd hin hval, ?_⟩
  rw [exec_set_of_hasValue (s := s.store _) hwf hd hin hval, State.store_buf, writeField_writeField hok hbuf]
  rfl

/-! ### Disjoint fields -/

/-- The value array depends on the bits of the span only (42_field_access.md R78). -/
theorem valueArray_congr {m m' : Memory} {sp : BitSpan}
    (h : ∀ j, j < sp.bitLength → m.bit (sp.firstBit + j) = m'.bit (sp.firstBit + j)) :
    valueArray m sp = valueArray m' sp := by
  refine List.map_congr_left fun i _ => BitVec.eq_of_getLsbD_eq fun p hp => ?_
  have hlen : min 8 (sp.bitLength - 8 * i) ≤ 8 := Nat.min_le_left _ _
  rw [getLsbD_extractByte m hlen hp, getLsbD_extractByte m' hlen hp, Nat.add_assoc]
  by_cases hin : p < min 8 (sp.bitLength - 8 * i)
  · rw [h _ (by omega)]
  · rw [decide_eq_false hin, Bool.false_and, Bool.false_and]

theorem valueArray_writeField_of_disjoint {a b : BitSpan} (ha : SpanOk a) (hb : SpanOk b) (hdis : SpansDisjoint a b)
    (m : Memory) (va : List Byte) : valueArray (writeField m a va) b = valueArray m b := by
  have hlen := firstBit_add_bitLength hb
  exact valueArray_congr fun j hj => bit_writeField_of_outside ha m va (by omega)

/-- Settles O37: no bit of the one span is written, and the other field's value array depends on its own span only. -/
theorem disjointSetDoesNotDisturbGet : Obligations.DisjointSetDoesNotDisturbGet := by
  intro s f g a b v hwf ha hb hdis hin hval
  have hokA := hwf.spanOk (List.mem_of_getElem? ha)
  have hokB := hwf.spanOk (List.mem_of_getElem? hb)
  obtain ⟨x, hbefore, hafter⟩ := exists_exec_get_eq hwf hb
    (State.store_cfg s (writeField s.buf a.span (encodeValue a.span.byteLength v)))
    (valueArray_writeField_of_disjoint hokA hokB hdis s.buf _)
  exact ⟨_, x, exec_set_of_hasValue hwf ha hin hval, fun j hj => bit_writeField_of_outside hokA s.buf _ hj, hbefore,
    hafter⟩

end Sys2Proof.Machine
end

section
/-! The register operations DEFAULT, FROM, DATA and CLONE: their words, what each drives and writes, and that no operation
but SET, DEFAULT and FROM writes a byte (43_register_ops.md R90 to R94). -/

namespace Sys2Proof

/-! ### The words of format Z -/

theorem decode_matchWord_of_formatZ {i : Instr} (hi : 3 ≤ i.opcode) : decode i.matchWord = .ok i := by
  refine decode_of_formatZ hi ?_ ?_ <;> rw [toNat_matchWord]
  · exact Nat.mul_div_cancel _ (by decide)
  · exact Nat.mul_mod_left _ _

theorem decode_of_formatZ_reserved {w : Word} {i : Instr} (hi : 3 ≤ i.opcode) (hop : w.toNat / 4096 = i.opcode)
    (hnz : w.toNat % 4096 ≠ 0) : decode w = .error (.reservedBits w) := by
  rw [decode_of_opcode_formatZ hi hop, if_neg hnz]

namespace Machine

variable {s : State}

/-! ### DEFAULT -/

/-- A value array of zero bits decodes to the zero value of its type (43_register_ops.md R90). -/
theorem decodeValue_of_valueBit_eq_false {widths : List Nat} {ty : ValueType} (hty : ty.admitted widths = true)
    {va : List Byte} (hva : ∀ j : Nat, valueBit va j = false) : decodeValue ty va = some (zeroValue ty) := by
  rcases ValueType.admitted_iff.1 hty with rfl | ⟨w, hw, -⟩
  · rw [decodeValue_bool, show valueBit va 0 = false from hva 0]
    rfl
  · have hzero : leValue va = 0 := Nat.eq_of_testBit_eq fun j => by rw [testBit_leValue, hva, Nat.zero_testBit]
    rw [decodeValue_of_isUnsigned hw, hzero, Nat.zero_mod]
    rcases hw with rfl | rfl <;> rfl

/-- GET of a field of a block whose `S` bytes are zero drives the zero value of its type. -/
theorem exec_get_of_read_eq_zero {f : Nat} {d : FieldDescriptor} (hwf : s.cfg.WellFormed) (hd : s.cfg.desc[f]? = some d)
    (hz : ∀ i, i < s.size → s.buf.read i = 0#8) :
    exec (.get f) s = .next (s.respond (some (.value (zeroValue d.valueType)))) := by
  have hmem := List.mem_of_getElem? hd
  obtain ⟨hok, hty⟩ := (Config.wellFormed_iff.1 hwf).1 d hmem
  have hlen := firstBit_add_bitLength hok
  have hbyte : d.span.lastBit / 8 < s.size := Config.lastByte_lt_size hmem
  refine exec_get_of_decode hwf hd (decodeValue_of_valueBit_eq_false hty fun j => ?_)
  rw [valueBit_valueArray]
  by_cases hj : j < d.span.bitLength
  · rw [Memory.bit, hz _ (by omega), BitVec.getLsbD_zero, Bool.and_false]
  · rw [decide_eq_false hj, Bool.false_and]

/-- Settles O39: zeros are written over the `S` bytes, in which every span lies. -/
theorem defaultZeroesTheBuffer : Obligations.DefaultZeroesTheBuffer := by
  have hop : 3 ≤ Instr.default.opcode := by decide
  refine ⟨decode_matchWord_of_formatZ hop, fun w => decode_of_formatZ_reserved hop,
    fun s => ⟨_, exec_default s, fun i hi => ?_, fun i hi => ?_⟩, fun s t f d hwf hd ht => ?_⟩
  · rw [Memory.read_writeBytes_replicate_zero, if_pos hi]
  · rw [Memory.read_writeBytes_replicate_zero, if_neg (Nat.not_lt.2 hi)]
  · have hzero := (resetAndDefaultValues.2 s t ht).1
    have hcfg := exec_cfg ht
    rw [State.size, ← hcfg] at hzero
    exact exec_get_of_read_eq_zero (hcfg ▸ hwf) (hcfg ▸ hd) hzero

/-! ### FROM -/

theorem exec_fromBuf_of_length_eq {bs : List Byte} (hin : s.dataIn = some (.bytes bs)) (hlen : bs.length = s.size) :
    exec .fromBuf s = .next (s.store (s.buf.writeBytes 0 bs)) := by
  simp only [exec, execFromBuf, State.bytesOperand_eq_some.2 hin, if_pos hlen]

theorem exec_fromBuf_of_length_ne {bs : List Byte} (hin : s.dataIn = some (.bytes bs)) (hlen : bs.length ≠ s.size) :
    exec .fromBuf s = .next (s.refuse (.fromLength (some bs.length))) := by
  simp only [exec, execFromBuf, State.bytesOperand_eq_some.2 hin, if_neg hlen]

theorem Memory.read_writeBytes_zero_of_lt (m : Memory) {bs : List Byte} {i : Nat} (hi : i < bs.length) :
    (m.writeBytes 0 bs).read i = bs[i] := by
  rw [Memory.read_writeBytes, if_pos (by omega), Nat.sub_zero, List.getD_eq_getElem _ _ hi]

theorem Memory.read_writeBytes_zero_of_length_le (m : Memory) {bs : List Byte} {i : Nat} (hi : bs.length ≤ i) :
    (m.writeBytes 0 bs).read i = m.read i := by
  rw [Memory.read_writeBytes, if_neg (by omega)]

/-- Settles O41: the length decides between the write of the bytes from address 0 on and the refusal. -/
theorem fromReplacesTheBuffer : Obligations.FromReplacesTheBuffer := by
  have hop : 3 ≤ Instr.fromBuf.opcode := by decide
  refine ⟨decode_matchWord_of_formatZ hop, fun w => decode_of_formatZ_reserved hop,
    fun s bs hin hlen => ⟨_, exec_fromBuf_of_length_eq hin hlen, fun i hi => ?_, fun i hi => ?_⟩,
    fun s bs hin hlen => exec_fromBuf_of_length_ne hin hlen⟩
  · have hlt : i < bs.length := hlen ▸ hi
    rw [Memory.read_writeBytes_zero_of_lt _ hlt, List.getElem?_eq_getElem hlt]
  · exact Memory.read_writeBytes_zero_of_length_le _ (hlen ▸ hi)

/-! ### DATA and CLONE -/

theorem exec_data (s : State) : exec .data s = .next (s.respond (some (.bytes (s.buf.readBytes 0 s.size)))) := rfl

theorem exec_clone (s : State) : exec .clone s = .next (s.respond (some (.bytes (s.buf.readBytes 0 s.size)))) := rfl

theorem Memory.getElem?_readBytes_zero (m : Memory) {n i : Nat} (hi : i < n) :
    (m.readBytes 0 n)[i]? = some (m.read i) := by
  rw [Memory.getElem?_readBytes m 0 n i hi, Nat.zero_add]

/-- Settles O43: the bytes read from address 0 on are the buffer's. -/
theorem dataReturnsTheBuffer : Obligations.DataReturnsTheBuffer := by
  have hop : 3 ≤ Instr.data.opcode := by decide
  exact ⟨decode_matchWord_of_formatZ hop, fun w => decode_of_formatZ_reserved hop, fun s =>
    ⟨_, exec_data s, Memory.length_readBytes _ _ _, fun i hi => Memory.getElem?_readBytes_zero _ hi⟩⟩

/-- An instance built from exactly `S` bytes is the power-on one with those bytes written (70_reset_and_hazards.md R111 (b)). -/
theorem constructFrom_of_length_eq {cfg : Config} {bs : List Byte} (hwf : cfg.WellFormed) (hlen : bs.length = cfg.size) :
    constructFrom cfg bs =
      .next (State.store { State.powerOn cfg with dataIn := some (.bytes bs) } (Memory.writeBytes [] 0 bs)) := by
  simp only [constructFrom, construct_of_wellFormed hwf]
  exact exec_fromBuf_of_length_eq (s := { State.powerOn cfg with dataIn := some (.bytes bs) }) rfl hlen

/-- The first `n` bytes of a canonical memory that lists nothing else, written to an empty one, give it back. -/
theorem Memory.writeBytes_readBytes {m : Memory} {n : Nat} (hwf : m.wf) (hbelow : m.below n) :
    Memory.writeBytes [] 0 (m.readBytes 0 n) = m := by
  have hlen := Memory.length_readBytes m 0 n
  refine Memory.ext_of_wf (Memory.wf_writeBytes 0 _ Memory.wf_nil) hwf fun i => ?_
  by_cases hi : i < n
  · have hlt : i < (m.readBytes 0 n).length := hlen.symm ▸ hi
    rw [Memory.read_writeBytes_zero_of_lt _ hlt, List.getElem_eq_iff, Memory.getElem?_readBytes_zero m hi]
  · rw [Memory.read_writeBytes_zero_of_length_le _ (by omega), Memory.read_nil,
      Memory.read_eq_zero_of_below hbelow (Nat.le_of_not_lt hi)]

/-- Settles O44: the copy, written to the empty buffer of a second instance, gives the first one's buffer. -/
theorem cloneCopiesTheBuffer : Obligations.CloneCopiesTheBuffer := by
  have hop : 3 ≤ Instr.clone.opcode := by decide
  refine ⟨decode_matchWord_of_formatZ hop, fun w => decode_of_formatZ_reserved hop, fun s =>
    ⟨_, exec_clone s, Memory.length_readBytes _ _ _, fun i hi => Memory.getElem?_readBytes_zero _ hi⟩, fun s hs =>
    ⟨_, _, exec_clone s, constructFrom_of_length_eq hs.config (Memory.length_readBytes _ _ _), rfl, ?_, rfl⟩⟩
  exact Memory.writeBytes_readBytes hs.canonical hs.inside

/-! ### What writes the buffer -/

theorem eq_set_or_default_or_fromBuf_of_buf_ne {i : Instr} {s t : State} (h : exec i s = .next t) (hbuf : t.buf ≠ s.buf) :
    (∃ f, i = .set f) ∨ i = .default ∨ i = .fromBuf := by
  rcases exec_cases h with ⟨r, -, -, rfl⟩ | ⟨o, rfl⟩ | ⟨a, bs, -, ⟨hi, -⟩ | ⟨hi, -⟩ | ⟨f, d, hi, -⟩⟩
  · exact absurd (State.refuse_buf s r) hbuf
  · exact absurd (State.respond_buf s _) hbuf
  · exact .inr (.inl hi)
  · exact .inr (.inr hi)
  · exact .inl ⟨f, hi⟩

/-- Settles O55: a refusal and a response leave the buffer as it is, and so does a step that runs no operation. -/
theorem onlySetDefaultAndFromWriteTheBuffer : Obligations.OnlySetDefaultAndFromWriteTheBuffer := by
  refine ⟨fun i s t => eq_set_or_default_or_fromBuf_of_buf_ne, fun s t h hbuf => ?_⟩
  obtain ⟨-, -, ⟨-, rfl⟩ | ⟨r, rest, hq, ⟨e, -, rfl⟩ | ⟨i, hdec, hx⟩⟩⟩ := step_cases h
  · exact absurd rfl hbuf
  · exact absurd rfl hbuf
  · exact ⟨r, rest, i, hq, hdec, eq_set_or_default_or_fromBuf_of_buf_ne hx hbuf⟩

end Machine
end Sys2Proof
end

section
/-! When the block stops, waits or refuses, and that a refusal is precise (60_exceptions.md R95 to R100, R109). -/

namespace Sys2Proof.Machine

variable {s t : State} {r : Request} {rest : List Request}

/-! ### The step in the order of its checks: the configuration, the mark, the requests, the word (60_exceptions.md R98) -/

theorem step_of_check {c : ConfigCheck} {d : Option Nat} (hc : s.cfg.check = some (c, d)) :
    step s = .refused (.config c d) := by
  simp only [step, fetch, hc]

theorem step_of_refused (hwf : s.cfg.WellFormed) (hmark : s.refused = true) : step s = .refused .halted := by
  simp only [step, fetch, show s.cfg.check = none from hwf, if_pos hmark]

theorem step_of_no_request (hs : s.Ready) (hq : s.requests = []) : step s = .next s := by
  obtain ⟨hwf, hmark⟩ := hs
  simp [step, fetch, hwf, hmark, hq]

theorem step_of_decode_error {e : Reason} (hs : s.Ready) (hq : s.requests = r :: rest) (he : decode r.word = .error e) :
    step s = .next ((s.take r rest).refuse e) := by
  obtain ⟨hwf, hmark⟩ := hs
  simp [step, fetch, hwf, hmark, hq, he]

/-- Settles O47: construction and step both make the check of the configuration first. -/
theorem illFormedConfigurationHasNoRun : Obligations.IllFormedConfigurationHasNoRun := by
  rintro _ c d hc
  refine ⟨construct_of_check hc, ?_⟩
  rintro s rfl
  exact step_of_check hc

/-- Settles O49: the reserved word is refused on the state that has taken the request. -/
theorem stepRefusesReservedWords : Obligations.StepRefusesReservedWords :=
  fun _ _ _ _ hs hq he => step_of_decode_error hs hq he

/-- Settles O50: a ready block with an empty queue is idle. -/
theorem idleBlockHoldsItsState : Obligations.IdleBlockHoldsItsState :=
  fun _ hs hq => step_of_no_request hs hq

/-- Settles O51: the mark is looked at before the queue. -/
theorem haltedBlockTakesNoOperation : Obligations.HaltedBlockTakesNoOperation :=
  fun _ hwf hmark => step_of_refused hwf hmark

/-- Settles O57: nothing is issued, a reserved word is refused, or an operation runs, which completes on the well-formed
configuration that taking the request leaves. -/
theorem everyStepOfAReadyBlockCompletes : Obligations.EveryStepOfAReadyBlockCompletes := by
  intro s hs
  cases hq : s.requests with
  | nil => exact ⟨s, step_of_no_request hs hq⟩
  | cons r rest =>
    cases hd : decode r.word with
    | error e => exact ⟨_, step_of_decode_error hs hq hd⟩
    | ok i =>
      have hwf : (s.take r rest).cfg.WellFormed := hs.1
      rw [step_of_fetch_run (fetch_eq_run hs hq hd)]
      exact exec_completes hwf i

/-! ### Refusals -/

/-- An operation that sets the mark does nothing but refuse. -/
theorem exec_sets_mark {i : Instr} (h : exec i s = .next t) (hs : s.refused = false) (ht : t.refused = true) :
    ∃ e : Reason, 3 ≤ e.code ∧ e.code ≤ 6 ∧ t = s.refuse e := by
  rcases exec_cases h with hrefuse | ⟨o, rfl⟩ | ⟨a, bs, rfl, -⟩
  · exact hrefuse
  · rw [State.respond_refused, hs] at ht; cases ht
  · rw [State.store_refused, hs] at ht; cases ht

/-- A step that sets the mark takes the request and refuses it, at decode (codes 1 and 2) or in the operation (codes 3 to 6). -/
theorem step_sets_mark (h : step s = .next t) (hs : s.refused = false) (ht : t.refused = true) :
    ∃ (r : Request) (rest : List Request) (e : Reason), s.requests = r :: rest ∧ 1 ≤ e.code ∧ e.code ≤ 6 ∧
      t = (s.take r rest).refuse e := by
  obtain ⟨-, -, ⟨-, rfl⟩ | ⟨r, rest, hq, ⟨e, he, rfl⟩ | ⟨i, -, hx⟩⟩⟩ := step_cases h
  · rw [hs] at ht; cases ht
  · obtain ⟨hlow, hhigh⟩ := decode_error_code he
    exact ⟨r, rest, e, hq, hlow, by omega, rfl⟩
  · obtain ⟨e, hlow, hhigh, rfl⟩ := exec_sets_mark hx hs ht
    exact ⟨r, rest, e, hq, by omega, hhigh, rfl⟩

/-- Settles O52: the step refused the request it took, and the configuration it leaves is still well-formed, so the mark
halts the next step. -/
theorem refusedOperationIsPrecise : Obligations.RefusedOperationIsPrecise := by
  intro s t h hs ht
  obtain ⟨hwf, -⟩ := step_cases h
  obtain ⟨r, rest, e, hq, hlow, hhigh, rfl⟩ := step_sets_mark h hs ht
  exact ⟨r, rest, e, hq, hlow, hhigh, rfl, step_of_refused hwf ht⟩

end Sys2Proof.Machine
end

section
/-! The two ways an instance is created (70_reset_and_hazards.md R111). -/

namespace Sys2Proof.Machine

/-- An instance built from exactly `S` bytes holds the configuration, the caller's bytes in order and a clear mark. -/
theorem constructFrom_gives_bytes {cfg : Config} {bs : List Byte} (hwf : cfg.WellFormed) (hlen : bs.length = cfg.size) :
    ∃ s, constructFrom cfg bs = .next s ∧ s.cfg = cfg ∧ s.refused = false ∧
      ∀ i, i < cfg.size → bs[i]? = some (s.buf.read i) := by
  refine ⟨_, constructFrom_of_length_eq hwf hlen, rfl, rfl, fun i hi => ?_⟩
  have hlt : i < bs.length := hlen ▸ hi
  rw [State.store_buf, Memory.read_writeBytes_zero_of_lt _ hlt, List.getElem?_eq_getElem hlt]

/-- Settles O46: (a) is the power-on state, whose bytes are zero; (b) is that state after FROM of the `S` bytes. -/
theorem constructionGivesZerosOrTheBytes : Obligations.ConstructionGivesZerosOrTheBytes := by
  intro cfg hwf
  constructor
  · obtain ⟨s, hs, -, hzero, -⟩ := resetAndDefaultValues.1 cfg hwf
    exact ⟨s, hs, hzero⟩
  · exact fun bs hlen => constructFrom_gives_bytes hwf hlen

end Sys2Proof.Machine
end
